-- ==== Sys2Proof/Word.lean ====
section
/-! DEFINITION. The fixed-width values of the hardware (00_scope.md R5 to R7): every value is unsigned. -/

namespace Sys2Proof

/-- A byte: the width of a general register, a timer and a memory cell (R5, REG_WIDTH, TIMER_WIDTH). -/
abbrev Byte := BitVec 8

/-- A 16-bit quantity: an instruction word, the program counter, one stack entry (R5). -/
abbrev Word := BitVec 16

/-- A general register's number, the 4-bit field x or y of an instruction (R20, R92). -/
abbrev Reg := BitVec 4

/-- The 12-bit address immediate nnn and the width of the register I (R5, R25, R92). -/
abbrev Addr := BitVec 12

end Sys2Proof
end

