-- ==== Sys2Proof/Syntax.lean ====
section
/-! DEFINITION. The instructions: one constructor per row of spec/opcode_table.json, in the table's order. Each operand
has exactly the width of its field (30_encoding.md R92), so every term is an instruction some word encodes.
`Unknown` is no row of the table: it is the absence of an instruction (`decode w = none`). -/

namespace Sys2Proof

/-- The 34 operation kinds (30_encoding.md R94) with the operands of their formats (R91). -/
inductive Instr where
  | cls
  | ret
  | jp (nnn : Addr)
  | call (nnn : Addr)
  | se (x : Reg) (kk : Byte)
  | sne (x : Reg) (kk : Byte)
  | ser (x y : Reg)
  | ld (x : Reg) (kk : Byte)
  | add (x : Reg) (kk : Byte)
  | ldr (x y : Reg)
  | or (x y : Reg)
  | and (x y : Reg)
  | xor (x y : Reg)
  | addr (x y : Reg)
  | sub (x y : Reg)
  /-- The field y of the word is ignored (R161), so it is no operand (log 20). -/
  | shr (x : Reg)
  | subn (x y : Reg)
  /-- The field y of the word is ignored (R162), so it is no operand (log 20). -/
  | shl (x : Reg)
  | sner (x y : Reg)
  | ldi (nnn : Addr)
  | jpo (nnn : Addr)
  | rnd (x : Reg) (kk : Byte)
  | drw (x y : Reg) (n : BitVec 4)
  | skp (x : Reg)
  | sknp (x : Reg)
  | lddt (x : Reg)
  | ldkp (x : Reg)
  | lddtr (x : Reg)
  | ldst (x : Reg)
  | addi (x : Reg)
  | lds (x : Reg)
  | ldbcd (x : Reg)
  | ldir (x : Reg)
  | ldri (x : Reg)
  deriving DecidableEq, Repr

/-- The instruction's mnemonic, as spec/opcode_table.json spells it. -/
def Instr.mnemonic : Instr → String
  | .cls => "CLS"
  | .ret => "RET"
  | .jp _ => "JP"
  | .call _ => "CALL"
  | .se _ _ => "SE"
  | .sne _ _ => "SNE"
  | .ser _ _ => "SER"
  | .ld _ _ => "LD"
  | .add _ _ => "ADD"
  | .ldr _ _ => "LDR"
  | .or _ _ => "OR"
  | .and _ _ => "AND"
  | .xor _ _ => "XOR"
  | .addr _ _ => "ADDR"
  | .sub _ _ => "SUB"
  | .shr _ => "SHR"
  | .subn _ _ => "SUBN"
  | .shl _ => "SHL"
  | .sner _ _ => "SNER"
  | .ldi _ => "LDI"
  | .jpo _ => "JPO"
  | .rnd _ _ => "RND"
  | .drw _ _ _ => "DRW"
  | .skp _ => "SKP"
  | .sknp _ => "SKNP"
  | .lddt _ => "LDDT"
  | .ldkp _ => "LDKP"
  | .lddtr _ => "LDDTR"
  | .ldst _ => "LDST"
  | .addi _ => "ADDI"
  | .lds _ => "LDS"
  | .ldbcd _ => "LDBCD"
  | .ldir _ => "LDIR"
  | .ldri _ => "LDRI"

end Sys2Proof
end

