-- ==== Sys2Proof/WellFormed.lean ====
section
/-! DEFINITION. Well-formedness. The operands of an `Instr` carry their widths in their types, so no ill-formed
instruction can be built; what can be ill-formed is a WORD. A word is well formed when it selects a row of the
opcode table (30_encoding.md R101); every other word is `Unknown` (R102). The rows are spec/opcode_table.json's
(mask, match) pairs; Decode.lean is written from R101's algorithm instead, and that the two agree is a claim. -/

namespace Sys2Proof

/-- One row of the opcode table: a word w selects it when `(w & mask) = match` (30_encoding.md R101). -/
structure Row where
  mnemonic : String
  mask : Word
  pattern : Word
  deriving DecidableEq, Repr

/-- The word selects the row. -/
def Row.selects (r : Row) (w : Word) : Bool := w &&& r.mask == r.pattern

/-- Rows CLS to ADD of spec/opcode_table.json. -/
def opcodeRows0to7 : List Row :=
  [⟨"CLS", 0xFFFF, 0x00E0⟩,
   ⟨"RET", 0xFFFF, 0x00EE⟩,
   ⟨"JP", 0xF000, 0x1000⟩,
   ⟨"CALL", 0xF000, 0x2000⟩,
   ⟨"SE", 0xF000, 0x3000⟩,
   ⟨"SNE", 0xF000, 0x4000⟩,
   ⟨"SER", 0xF00F, 0x5000⟩,
   ⟨"LD", 0xF000, 0x6000⟩,
   ⟨"ADD", 0xF000, 0x7000⟩]

/-- Rows LDR to SHL of spec/opcode_table.json. -/
def opcodeRows8 : List Row :=
  [⟨"LDR", 0xF00F, 0x8000⟩,
   ⟨"OR", 0xF00F, 0x8001⟩,
   ⟨"AND", 0xF00F, 0x8002⟩,
   ⟨"XOR", 0xF00F, 0x8003⟩,
   ⟨"ADDR", 0xF00F, 0x8004⟩,
   ⟨"SUB", 0xF00F, 0x8005⟩,
   ⟨"SHR", 0xF00F, 0x8006⟩,
   ⟨"SUBN", 0xF00F, 0x8007⟩,
   ⟨"SHL", 0xF00F, 0x800E⟩]

/-- Rows SNER to SKNP of spec/opcode_table.json. -/
def opcodeRows9toE : List Row :=
  [⟨"SNER", 0xF00F, 0x9000⟩,
   ⟨"LDI", 0xF000, 0xA000⟩,
   ⟨"JPO", 0xF000, 0xB000⟩,
   ⟨"RND", 0xF000, 0xC000⟩,
   ⟨"DRW", 0xF000, 0xD000⟩,
   ⟨"SKP", 0xF0FF, 0xE09E⟩,
   ⟨"SKNP", 0xF0FF, 0xE0A1⟩]

/-- Rows LDDT to LDRI of spec/opcode_table.json. -/
def opcodeRowsF : List Row :=
  [⟨"LDDT", 0xF0FF, 0xF007⟩,
   ⟨"LDKP", 0xF0FF, 0xF00A⟩,
   ⟨"LDDTR", 0xF0FF, 0xF015⟩,
   ⟨"LDST", 0xF0FF, 0xF018⟩,
   ⟨"ADDI", 0xF0FF, 0xF01E⟩,
   ⟨"LDS", 0xF0FF, 0xF029⟩,
   ⟨"LDBCD", 0xF0FF, 0xF033⟩,
   ⟨"LDIR", 0xF0FF, 0xF055⟩,
   ⟨"LDRI", 0xF0FF, 0xF065⟩]

/-- The opcode table, 34 rows. The selector values are the spec's general knowledge (GK1): PRESUMED (log 6), unsafe. -/
def opcodeTable : List Row := opcodeRows0to7 ++ opcodeRows8 ++ opcodeRows9toE ++ opcodeRowsF

/-- The word is well formed: it selects some row of the opcode table (30_encoding.md R101, R102). -/
def recognised (w : Word) : Bool := opcodeTable.any (fun r => r.selects w)

end Sys2Proof
end

