-- ==== Sys2Proof/Decode.lean ====
section
/-! DEFINITION. The Decoder: a pure, total function of the 16 bits (30_encoding.md R90, R94, R101), the encoder beside
it, and the readings of bytes and of table words. The selector values are the spec's general knowledge (GK1): PRESUMED
(log 6), unsafe; a word of a known group with an unused selector is `Unknown` (D3, log 7), safe. -/

namespace Sys2Proof

/-- op = w[15:12] (R92). -/
def opField (w : Word) : BitVec 4 := w.extractLsb' 12 4

/-- x = w[11:8] (R92). -/
def xField (w : Word) : Reg := w.extractLsb' 8 4

/-- y = w[7:4] (R92). -/
def yField (w : Word) : Reg := w.extractLsb' 4 4

/-- n = w[3:0] (R92). -/
def nField (w : Word) : BitVec 4 := w.extractLsb' 0 4

/-- kk = w[7:0] (R92). -/
def kkField (w : Word) : Byte := w.extractLsb' 0 8

/-- nnn = w[11:0] (R92). -/
def nnnField (w : Word) : Addr := w.extractLsb' 0 12

/-- Group 0: the whole word is the selector (R97). -/
def decodeGroup0 (w : Word) : Option Instr :=
  if w = 0x00E0 then some .cls else if w = 0x00EE then some .ret else none

/-- Group 8, selector n (R98). -/
def decodeGroup8 (w : Word) : Option Instr :=
  let x := xField w
  let y := yField w
  match (nField w).toNat with
  | 0x0 => some (.ldr x y)
  | 0x1 => some (.or x y)
  | 0x2 => some (.and x y)
  | 0x3 => some (.xor x y)
  | 0x4 => some (.addr x y)
  | 0x5 => some (.sub x y)
  | 0x6 => some (.shr x)
  | 0x7 => some (.subn x y)
  | 0xE => some (.shl x)
  | _ => none

/-- Group E, selector kk (R99). -/
def decodeGroupE (w : Word) : Option Instr :=
  let x := xField w
  match (kkField w).toNat with
  | 0x9E => some (.skp x)
  | 0xA1 => some (.sknp x)
  | _ => none

/-- Group F, selector kk (R100). -/
def decodeGroupF (w : Word) : Option Instr :=
  let x := xField w
  match (kkField w).toNat with
  | 0x07 => some (.lddt x)
  | 0x0A => some (.ldkp x)
  | 0x15 => some (.lddtr x)
  | 0x18 => some (.ldst x)
  | 0x1E => some (.addi x)
  | 0x29 => some (.lds x)
  | 0x33 => some (.ldbcd x)
  | 0x55 => some (.ldir x)
  | 0x65 => some (.ldri x)
  | _ => none

/-- The decoder of R101; `none` is the kind `Unknown`. -/
def decode (w : Word) : Option Instr :=
  match (opField w).toNat with
  | 0x0 => decodeGroup0 w
  | 0x1 => some (.jp (nnnField w))
  | 0x2 => some (.call (nnnField w))
  | 0x3 => some (.se (xField w) (kkField w))
  | 0x4 => some (.sne (xField w) (kkField w))
  | 0x5 => if nField w = 0 then some (.ser (xField w) (yField w)) else none
  | 0x6 => some (.ld (xField w) (kkField w))
  | 0x7 => some (.add (xField w) (kkField w))
  | 0x8 => decodeGroup8 w
  | 0x9 => if nField w = 0 then some (.sner (xField w) (yField w)) else none
  | 0xA => some (.ldi (nnnField w))
  | 0xB => some (.jpo (nnnField w))
  | 0xC => some (.rnd (xField w) (kkField w))
  | 0xD => some (.drw (xField w) (yField w) (nField w))
  | 0xE => decodeGroupE w
  | 0xF => decodeGroupF w
  | _ => none

/-- Format FNNN: op, nnn (R91). -/
def wordFNNN (op : BitVec 4) (nnn : Addr) : Word :=
  op.setWidth 16 <<< 12 ||| nnn.setWidth 16

/-- Format FXKK, and FX with its selector as kk: op, x, kk (R91). -/
def wordFXKK (op : BitVec 4) (x : Reg) (kk : Byte) : Word :=
  op.setWidth 16 <<< 12 ||| x.setWidth 16 <<< 8 ||| kk.setWidth 16

/-- Format FXYN, and FXY with its selector as n: op, x, y, n (R91). -/
def wordFXYN (op : BitVec 4) (x y : Reg) (n : BitVec 4) : Word :=
  op.setWidth 16 <<< 12 ||| x.setWidth 16 <<< 8 ||| y.setWidth 16 <<< 4 ||| n.setWidth 16

/-- The word of an instruction, from the patterns of R96 to R100. SHR and SHL are written with y = 0, as the spec's
assembler writes them (R104, log 20). -/
def encode : Instr → Word
  | .cls => 0x00E0
  | .ret => 0x00EE
  | .jp nnn => wordFNNN 0x1 nnn
  | .call nnn => wordFNNN 0x2 nnn
  | .se x kk => wordFXKK 0x3 x kk
  | .sne x kk => wordFXKK 0x4 x kk
  | .ser x y => wordFXYN 0x5 x y 0x0
  | .ld x kk => wordFXKK 0x6 x kk
  | .add x kk => wordFXKK 0x7 x kk
  | .ldr x y => wordFXYN 0x8 x y 0x0
  | .or x y => wordFXYN 0x8 x y 0x1
  | .and x y => wordFXYN 0x8 x y 0x2
  | .xor x y => wordFXYN 0x8 x y 0x3
  | .addr x y => wordFXYN 0x8 x y 0x4
  | .sub x y => wordFXYN 0x8 x y 0x5
  | .shr x => wordFXYN 0x8 x 0x0 0x6
  | .subn x y => wordFXYN 0x8 x y 0x7
  | .shl x => wordFXYN 0x8 x 0x0 0xE
  | .sner x y => wordFXYN 0x9 x y 0x0
  | .ldi nnn => wordFNNN 0xA nnn
  | .jpo nnn => wordFNNN 0xB nnn
  | .rnd x kk => wordFXKK 0xC x kk
  | .drw x y n => wordFXYN 0xD x y n
  | .skp x => wordFXKK 0xE x 0x9E
  | .sknp x => wordFXKK 0xE x 0xA1
  | .lddt x => wordFXKK 0xF x 0x07
  | .ldkp x => wordFXKK 0xF x 0x0A
  | .lddtr x => wordFXKK 0xF x 0x15
  | .ldst x => wordFXKK 0xF x 0x18
  | .addi x => wordFXKK 0xF x 0x1E
  | .lds x => wordFXKK 0xF x 0x29
  | .ldbcd x => wordFXKK 0xF x 0x33
  | .ldir x => wordFXKK 0xF x 0x55
  | .ldri x => wordFXKK 0xF x 0x65

/-- The high byte of a word, the one at the lower address (20_memory.md R64). -/
def highByte (w : Word) : Byte := w.extractLsb' 8 8

/-- The low byte of a word (20_memory.md R64). -/
def lowByte (w : Word) : Byte := w.extractLsb' 0 8

/-- The word of two consecutive bytes, `(hi << 8) | lo` (20_memory.md R63). -/
def wordOfBytes (hi lo : Byte) : Word := hi.setWidth 16 <<< 8 ||| lo.setWidth 16

/-- Why a byte string is no instruction. -/
inductive DecodeError where
  /-- Fewer than the two bytes every instruction has (R90). -/
  | truncated
  /-- The word is of the kind `Unknown` (R102). -/
  | unknown (w : Word)
  deriving DecidableEq, Repr

/-- The instruction at the head of a byte string and the bytes after it, or the reason there is none. -/
def decodeBytes : List Byte → Except DecodeError (Instr × List Byte)
  | hi :: lo :: rest =>
    match decode (wordOfBytes hi lo) with
    | some i => .ok (i, rest)
    | none => .error (.unknown (wordOfBytes hi lo))
  | _ => .error .truncated

/-- The two bytes of an instruction in memory order (R90). -/
def encodeBytes (i : Instr) : List Byte := [highByte (encode i), lowByte (encode i)]

/-- The one word of a table row: the low `nbits` bits of `w`, every bit above them 0. -/
def tableWord (nbits w : Nat) : Word := BitVec.ofNat 16 (w % 2 ^ nbits)

/-- The instruction the decoder reads from a table word laid out in memory order (high byte first). -/
def decodeTableWord (nbits w : Nat) : Option Instr :=
  match decodeBytes [highByte (tableWord nbits w), lowByte (tableWord nbits w)] with
  | .ok (i, _) => some i
  | .error _ => none

end Sys2Proof
end

