-- ==== Sys2Proof/Config.lean ====
section
/-! DEFINITION. What the spec leaves to the environment or leaves open, as opaque constants: nothing can evaluate
them, so whatever is proved holds for every value they could have. -/

namespace Sys2Proof

/-- FONT_BASE, the one OPEN parameter of the spec: `0 <= FONT_BASE <= 0x1B0` (00_scope.md R5, 92_eei_decisions.md D14).
DESIGN CHOICE (log 4), safe. -/
opaque Config.fontBase : Fin 0x1B1

/-- The level input `key_down[15:0]` as it is at the n-th sample of an input: bit k is key k
(10_state.md R38; the environment may change it between any two samples). DESIGN CHOICE (log 2), safe. -/
opaque Config.keyDown : Nat → BitVec 16

/-- The input `rnd[7:0]` at the n-th sample of an input: a draw under no law (10_state.md R40, 93 U1).
DESIGN CHOICE (log 3), safe. -/
opaque Config.rndByte : Nat → Byte

end Sys2Proof
end

