-- ==== Sys2Proof/Machine/State.lean ====
section
/-! DEFINITION. The machine's state (10_state.md), the events that change it (00_scope.md R13), and the reasons a step
can stop. Plain data throughout. -/

namespace Sys2Proof.Machine

/-- The four halting errors (60_exceptions.md R240); the numbers are `haltCode`. -/
inductive HaltReason where
  | invalidOpcode
  | memoryOutOfRange
  | stackOverflow
  | stackUnderflow
  deriving DecidableEq, Repr

/-- The halt record (60_exceptions.md R247): the reason, the address of the instruction that failed, its word (none for
a fetch fault) and the failing byte address (MemoryOutOfRange only). The fields beyond InvalidOpcode's `pc` and
`opcode` are the spec's decision D8 (log 16). -/
structure HaltRecord where
  reason : HaltReason
  pc : Word
  opcode : Option Word
  addr : Option Nat
  deriving DecidableEq, Repr

/-- The run-state register (10_state.md R31); the pending destination exists only in the wait (R32), the record only in
the halt (R33). -/
inductive RunState where
  | running
  | waitingForKey (d : Reg)
  | halted (r : HaltRecord)
  deriving DecidableEq, Repr

/-- One atomic event of the host (00_scope.md R13; 10_state.md R36 to R41). -/
inductive Event where
  | powerOn
  | reset
  | cycle
  | tick
  /-- Deliver key K, a keypad code 0..15 (R39). -/
  | keyEvent (k : BitVec 4)
  /-- The loader's write of any integer value at an address; out of range it is refused (R41). -/
  | hostWrite (addr v : Int)
  deriving DecidableEq, Repr

/-- What a port of the host answers to a request it refuses (10_state.md R41, R42; 60_exceptions.md R245). It goes to the
host component that made the request, never into the run state (log 24). -/
inductive PortError where
  /-- The source's `OutOfRange`: an address outside 0..4095, or a pixel outside the framebuffer. -/
  | outOfRange
  deriving DecidableEq, Repr

/-- The framebuffer's 64 x 32 one-bit cells (10_state.md R35): 32 rows of 64 columns, bit x of a row its column x. -/
abbrev Screen := Vector (BitVec 64) 32

/-- Everything the spec gives the machine (10_state.md R20 to R35), and at the end three fields of the MODEL's own. -/
structure State where
  /-- V0..VF (R20). -/
  v : Vector Byte 16
  /-- The program counter, never reduced (R23, log 8). -/
  pc : Word
  /-- The address register I (R25). -/
  i : Addr
  /-- The stack pointer, 0..16 (R26, log 9). -/
  sp : Fin 17
  /-- The call stack, a storage of its own (R27). -/
  stack : Vector Word 16
  /-- The delay timer (R29). -/
  dt : Byte
  /-- The sound timer (R30). -/
  st : Byte
  /-- The run state (R31). -/
  run : RunState
  /-- Memory (R34): addresses strictly rising, no listed byte 0; an unlisted address reads 0. -/
  mem : List Host.Cell
  /-- The framebuffer (R35): column x of row y is bit x of entry y (log 19). -/
  fb : Screen
  /-- Model's own: the environment's choice of the coming events, oldest first (R13, log 1). -/
  events : List Event
  /-- Model's own: how many samples of an input have been taken (R38, R40, logs 2 and 3). -/
  samples : Nat
  /-- Model's own: a cycle has run an instruction since the last power_on or reset (R290, log 18). -/
  started : Bool
  deriving DecidableEq, Repr

/-- What stops the machine. -/
inductive Fault where
  /-- Raised by the event `host_write` after the first cycle: the spec gives that host action no effect, "stuck (no
  move)" (70_reset_and_hazards.md R290, 93 U12, log 18). Safe: the model stops. No instruction raises it. -/
  | hostWriteAfterStart
  deriving DecidableEq, Repr

/-- What the model declines to run. -/
inductive Refusal where
  /-- Raised by `exec` alone, for an instruction that has no meaning yet; no arm raises it now. Safe. -/
  | notModelled (mnemonic : String)
  deriving DecidableEq, Repr

/-- The machine after `power_on` (10_state.md R44, 70_reset_and_hazards.md R280). The spec leaves the stack entries
unspecified: DESIGN CHOICE zero (log 10), unsafe. The model's own fields: DESIGN CHOICE (logs 1, 2 and 18). -/
def State.reset : State where
  v := Vector.replicate 16 0
  pc := 0x200
  i := 0
  sp := 0
  stack := Vector.replicate 16 0
  dt := 0
  st := 0
  run := .running
  mem := []
  fb := Vector.replicate 32 0
  events := []
  samples := 0
  started := false

end Sys2Proof.Machine
end

