-- ==== Sys2Proof/Machine/Ops.lean ====
section
/-! DEFINITION. The named operations over memory, registers, stack and framebuffer; halting, the machine's one kind of
trap, as ONE operation, and beside it the only two ways out of it, `powerOn` and `reset` (60_exceptions.md R247, R249). -/

namespace Sys2Proof.Machine

/-! ### Memory (20_memory.md) -/

/-- A valid byte address (R60). -/
def validAddr (a : Nat) : Bool := a < 4096

/-- The byte listed for an address; an unlisted address reads 0, the `power_on` value (R34). -/
def peek : List Host.Cell → Nat → Byte
  | [], _ => 0
  | (k, b) :: rest, a => if k = a then b else peek rest a

/-- Put a byte before the first listed address that is not below `a`, replacing the entry of `a` itself. -/
def insertCell (a : Nat) (b : Byte) : List Host.Cell → List Host.Cell
  | [] => [(a, b)]
  | (k, c) :: rest =>
    if a < k then (a, b) :: (k, c) :: rest
    else if a = k then (a, b) :: rest
    else (k, c) :: insertCell a b rest

/-- Store a byte and keep the canonical form: a 0 is not listed. -/
def poke (m : List Host.Cell) (a : Nat) (b : Byte) : List Host.Cell :=
  if b = 0 then m.filter (fun c => c.1 ≠ a) else insertCell a b m

/-- The canonical form of a memory: addresses valid and strictly rising, no listed byte 0. -/
def Memory.wf : List Host.Cell → Bool
  | [] => true
  | (a, b) :: rest => validAddr a && b != 0 && rest.all (fun c => decide (a < c.1)) && Memory.wf rest

/-- `MemRead(addr, 1)` (R61); the error is the failing byte address. -/
def memRead (m : List Host.Cell) (a : Nat) : Except Nat Byte :=
  if validAddr a then .ok (peek m a) else .error a

/-- `MemWrite(addr, 1, v)` (R62) of a byte; the error is the failing byte address. -/
def memWrite (m : List Host.Cell) (a : Nat) (b : Byte) : Except Nat (List Host.Cell) :=
  if validAddr a then .ok (poke m a b) else .error a

/-- `MemRead(addr, 2)` (R63): big-endian, both bytes checked before either is read; the error is the first byte address
that fails. -/
def memReadWord (m : List Host.Cell) (a : Nat) : Except Nat Word :=
  if validAddr a then
    if validAddr (a + 1) then .ok (wordOfBytes (peek m a) (peek m (a + 1))) else .error (a + 1)
  else .error a

/-- `MemWrite(addr, 2, v)` (R64): high byte first, neither byte written when one is out of range. No instruction uses
it. -/
def memWriteWord (m : List Host.Cell) (a : Nat) (w : Word) : Except Nat (List Host.Cell) :=
  if validAddr a then
    if validAddr (a + 1) then .ok (poke (poke m a (highByte w)) (a + 1) (lowByte w)) else .error (a + 1)
  else .error a

/-- Byte writes at `a`, `a + 1`, ... in ascending order: the memory after the writes that were made, and the address
that failed, if one did (R68, R186; D7, log 15). -/
def storeBytes (m : List Host.Cell) (a : Nat) : List Byte → List Host.Cell × Option Nat
  | [] => (m, none)
  | b :: bs =>
    match memWrite m a b with
    | .ok m' => storeBytes m' (a + 1) bs
    | .error e => (m, some e)

/-- `n` byte reads at `a`, `a + 1`, ... in ascending order: all the bytes, or the first address that failed (R205). -/
def readBytes (m : List Host.Cell) (a : Nat) : Nat → Except Nat (List Byte)
  | 0 => .ok []
  | n + 1 =>
    match memRead m a with
    | .error e => .error e
    | .ok b =>
      match readBytes m (a + 1) n with
      | .error e => .error e
      | .ok bs => .ok (b :: bs)

/-- `n` registers from number `k` up, loaded from `a`, `a + 1`, ... in ascending order: the registers after the loads
that were made, and the address that failed, if one did (R185; D7, log 15). -/
def loadRegs (m : List Host.Cell) (a k : Nat) : Nat → Vector Byte 16 → Vector Byte 16 × Option Nat
  | 0, v => (v, none)
  | n + 1, v =>
    match memRead m a with
    | .ok b => loadRegs m (a + 1) (k + 1) n (v.setIfInBounds k b)
    | .error e => (v, some e)

/-! ### Registers and stack (10_state.md) -/

/-- `V[x]` (R20). -/
def State.reg (s : State) (x : Reg) : Byte := s.v[x.toNat]

/-- `V[x] <- b` (R20): no register is hard-wired. -/
def State.setReg (s : State) (x : Reg) (b : Byte) : State := { s with v := s.v.set x.toNat b }

/-- `nextPC` as the cycle presets it: the instruction's own address plus 2, not reduced (00_scope.md R11, R23). -/
def State.advance (s : State) : State := { s with pc := s.pc + 2 }

/-- `nextPC <- target` (R24). -/
def State.jump (s : State) (target : Word) : State := { s with pc := target }

/-- The common rule of the six skips (40_cycle_and_control.md R128): `PC + 4` when the condition holds, else `PC + 2`. -/
def State.skipIf (s : State) (c : Bool) : State := { s with pc := if c then s.pc + 4 else s.pc + 2 }

/-- CALL's push (R125): none when the stack is at its full depth. -/
def State.push (s : State) (w : Word) : Option State :=
  if h : s.sp.val < 16 then
    some { s with stack := s.stack.set s.sp.val w, sp := ⟨s.sp.val + 1, Nat.succ_lt_succ h⟩ }
  else none

/-- RET's pop (R126): the entry just below SP, which keeps its value; none when the stack is empty. -/
def State.pop (s : State) : Option (Word × State) :=
  match h : s.sp.val with
  | 0 => none
  | k + 1 =>
    have hk : k < 16 := Nat.lt_of_succ_lt_succ (h ▸ s.sp.isLt)
    some (s.stack[k], { s with sp := ⟨k, Nat.lt_succ_of_lt hk⟩ })

/-! ### Framebuffer (43_display.md) -/

/-- `fb[x][y]` (R200): column x, row y. -/
def pixel (fb : Screen) (x : Fin 64) (y : Fin 32) : Bool := fb[y.val].getLsbD x.val

/-- `fb[x][y] <- b` (R200): the cell is flipped exactly when it does not hold b already. -/
def setPixel (fb : Screen) (x : Fin 64) (y : Fin 32) (b : Bool) : Screen :=
  fb.set y.val (fb[y.val] ^^^ if pixel fb x y = b then 0 else BitVec.twoPow 64 x.val)

/-- `clear()` (R201). -/
def clearScreen : Screen := Vector.replicate 32 0

/-- The column `(x0 + c) mod 64` (R202). -/
def wrapColumn (x0 c : Nat) : Fin 64 := Fin.ofNat 64 (x0 + c)

/-- The row `(y0 + r) mod 32` (R202). -/
def wrapRow (y0 r : Nat) : Fin 32 := Fin.ofNat 32 (y0 + r)

/-- The bit of a sprite row at bit-column c, counted from the left: bit 7 is the leftmost (R202). -/
def spriteBit (row : Byte) (c : Nat) : Bool := row.getLsbD (7 - c)

/-- The loop body of `drawSprite` (R202) for row `r`, column `c`: XOR one sprite bit onto its wrapped cell and record a
collision when the cell goes from set to clear (R203). The pair is the framebuffer and `collided`. -/
def drawPixel (x0 y0 r : Nat) (row : Byte) (p : Screen × Bool) (c : Nat) : Screen × Bool :=
  let dx := wrapColumn x0 c
  let dy := wrapRow y0 r
  let old := pixel p.1 dx dy
  let new := old ^^ spriteBit row c
  (setPixel p.1 dx dy new, p.2 || (old && !new))

/-- The eight columns of one sprite row, ascending (R202). -/
def drawRow (x0 y0 r : Nat) (row : Byte) (p : Screen × Bool) : Screen × Bool :=
  [0, 1, 2, 3, 4, 5, 6, 7].foldl (drawPixel x0 y0 r row) p

/-- The rows of the sprite from number `r` on, ascending (R202). -/
def drawRows (x0 y0 r : Nat) : List Byte → Screen × Bool → Screen × Bool
  | [], p => p
  | row :: rows, p => drawRows x0 y0 (r + 1) rows (drawRow x0 y0 r row p)

/-- `drawSprite(x0, y0, rows)` (R202): the framebuffer after it and whether any cell went from set to clear. -/
def drawSprite (x0 y0 : Nat) (rows : List Byte) (fb : Screen) : Screen × Bool :=
  drawRows x0 y0 0 rows (fb, false)

/-! ### Halting, and what leaves the halt -/

/-- The numeric code of a halting error (60_exceptions.md R240, D8, log 16). -/
def haltCode : HaltReason → Nat
  | .invalidOpcode => 1
  | .memoryOutOfRange => 2
  | .stackOverflow => 3
  | .stackUnderflow => 4

/-- `raise Halt(reason)` (60_exceptions.md R247): the run state becomes Halted with the record; PC is not written, no
register is saved, control goes nowhere. The writes made before it stay made (00_scope.md R10). -/
def State.halt (s : State) (reason : HaltReason) (opcode : Option Word) (addr : Option Nat) : State :=
  { s with run := .halted { reason := reason, pc := s.pc, opcode := opcode, addr := addr } }

/-- The end of an instruction that transfers bytes: it advances, or it halts with MemoryOutOfRange at the address that
failed, with the transfers made so far kept (60_exceptions.md R242). -/
def State.afterTransfer (s : State) (i : Instr) (failed : Option Nat) : State :=
  match failed with
  | none => s.advance
  | some a => s.halt .memoryOutOfRange (some (encode i)) (some a)

/-- The event `reset` (70_reset_and_hazards.md R281): everything `power_on` does, but Memory stays (D16, log 17). The
spec leaves the stack entries unspecified; they stay as they are (log 10). The environment's own fields stay. -/
def State.resetEvent (s : State) : State :=
  { s with
    v := Vector.replicate 16 0, pc := 0x200, i := 0, sp := 0, dt := 0, st := 0,
    run := .running, fb := clearScreen, started := false }

/-- The event `power_on` (R280): as `reset`, and Memory is zero-filled. -/
def State.powerOn (s : State) : State := { s.resetEvent with mem := [] }

end Sys2Proof.Machine
end

