-- ==== Sys2Proof/Machine/Flags.lean ====
section
/-! DEFINITION. The flag computations: six instructions write VF, always 0 or 1 (10_state.md R22), and the order in
which flag and result are written (41_alu.md R150). -/

namespace Sys2Proof.Machine

/-- A flag's value in all 8 bits of VF: 0x00 or 0x01 (R22). -/
def flagByte (b : Bool) : Byte := if b then 1 else 0

/-- The carry of ADDR (R158): the true sum exceeds 255. -/
def carryFlag (a b : Byte) : Byte := flagByte (decide (a.toNat + b.toNat > 255))

/-- The not-borrow of SUB and SUBN (R159, R160): minuend >= subtrahend. -/
def notBorrowFlag (minuend subtrahend : Byte) : Byte := flagByte (decide (minuend.toNat ≥ subtrahend.toNat))

/-- The bit SHR shifts out, old bit 0 (R161). -/
def shiftedOutLow (a : Byte) : Byte := flagByte (a.getLsbD 0)

/-- The bit SHL shifts out, old bit 7 (R162). -/
def shiftedOutHigh (a : Byte) : Byte := flagByte (a.getLsbD 7)

/-- The end of a flag-defining register instruction whose sources are latched: first VF, then V[x], then the advance
(R150; with x = 15 the result wins: D5, log 11). -/
def State.writeFlagged (s : State) (x : Reg) (flag result : Byte) : State :=
  ((s.setReg 0xF flag).setReg x result).advance

end Sys2Proof.Machine
end

