-- ==== Sys2Proof/Machine/Operands.lean ====
section
/-! DEFINITION. The operand forms: base-plus-index addresses through I (42_index_and_memory.md R186), the registers
V0..Vx, the decimal digits, the glyph address, and the inputs an instruction samples. -/

namespace Sys2Proof.Machine

/-- The address of the first byte of a transfer: I as an unbounded number, so that `I + k` is never reduced (R186; D24,
log 22). -/
def State.base (s : State) : Nat := s.i.toNat

/-- V[0], ..., V[x] in order (R184). -/
def State.regsUpTo (s : State) (x : Reg) : List Byte := s.v.toList.take (x.toNat + 1)

/-- The hundreds, tens and ones of a byte (R183). -/
def bcdDigits (a : Byte) : List Byte :=
  [BitVec.ofNat 8 (a.toNat / 100), BitVec.ofNat 8 (a.toNat / 10 % 10), BitVec.ofNat 8 (a.toNat % 10)]

/-- FONT_STRIDE (00_scope.md R5): the spec's general knowledge GK2, PRESUMED (log 5), unsafe. -/
def fontStride : Nat := 5

/-- The address of the glyph of a byte's low nibble (R182). -/
def glyphAddr (a : Byte) : Addr :=
  BitVec.ofNat 12 (Config.fontBase.val + fontStride * (a &&& 0x0F).toNat)

/-- `KeyPressed(k)` for one sample of `key_down` (44_keypad_and_timers.md R220): a code above 15 is never pressed (D10,
log 12). -/
def keyPressed (keys : BitVec 16) (k : Byte) : Bool := decide (k.toNat < 16) && keys.getLsbD k.toNat

/-- The sample of `key_down` this state's next sampling takes (10_state.md R38, log 2). -/
def State.keyDown (s : State) : BitVec 16 := Config.keyDown s.samples

/-- The sample of `rnd` this state's next sampling takes (10_state.md R40, log 3). -/
def State.rndByte (s : State) : Byte := Config.rndByte s.samples

/-- One sample of an input has been taken: the next one is a fresh free value. -/
def State.sampled (s : State) : State := { s with samples := s.samples + 1 }

end Sys2Proof.Machine
end

