-- ==== Sys2Proof/Machine/Alu.lean ====
section
/-! DEFINITION. Register load, arithmetic, logic, shift and random instructions (41_alu.md). All sources are read from
the state before the instruction (R150); arithmetic is modulo 256 (R151). -/

namespace Sys2Proof.Machine

/-- LD Vx,kk (R152). -/
def execLd (x : Reg) (kk : Byte) (s : State) : Host.Outcome State Fault Refusal :=
  .next (s.setReg x kk).advance

/-- LDR Vx,Vy (R153). -/
def execLdr (x y : Reg) (s : State) : Host.Outcome State Fault Refusal :=
  .next (s.setReg x (s.reg y)).advance

/-- ADD Vx,kk (R154): no flag. -/
def execAdd (x : Reg) (kk : Byte) (s : State) : Host.Outcome State Fault Refusal :=
  .next (s.setReg x (s.reg x + kk)).advance

/-- OR Vx,Vy (R155): no flag (D23, log 21). -/
def execOr (x y : Reg) (s : State) : Host.Outcome State Fault Refusal :=
  .next (s.setReg x (s.reg x ||| s.reg y)).advance

/-- AND Vx,Vy (R156): no flag (D23, log 21). -/
def execAnd (x y : Reg) (s : State) : Host.Outcome State Fault Refusal :=
  .next (s.setReg x (s.reg x &&& s.reg y)).advance

/-- XOR Vx,Vy (R157): no flag (D23, log 21). -/
def execXor (x y : Reg) (s : State) : Host.Outcome State Fault Refusal :=
  .next (s.setReg x (s.reg x ^^^ s.reg y)).advance

/-- ADDR Vx,Vy (R158): the carry in VF. -/
def execAddr (x y : Reg) (s : State) : Host.Outcome State Fault Refusal :=
  .next (s.writeFlagged x (carryFlag (s.reg x) (s.reg y)) (s.reg x + s.reg y))

/-- SUB Vx,Vy (R159): not-borrow in VF. -/
def execSub (x y : Reg) (s : State) : Host.Outcome State Fault Refusal :=
  .next (s.writeFlagged x (notBorrowFlag (s.reg x) (s.reg y)) (s.reg x - s.reg y))

/-- SUBN Vx,Vy (R160): V[y] - V[x], not-borrow in VF. -/
def execSubn (x y : Reg) (s : State) : Host.Outcome State Fault Refusal :=
  .next (s.writeFlagged x (notBorrowFlag (s.reg y) (s.reg x)) (s.reg y - s.reg x))

/-- SHR Vx (R161): the bit shifted out in VF. -/
def execShr (x : Reg) (s : State) : Host.Outcome State Fault Refusal :=
  .next (s.writeFlagged x (shiftedOutLow (s.reg x)) (s.reg x >>> 1))

/-- SHL Vx (R162): the bit shifted out in VF, the result masked to 8 bits. -/
def execShl (x : Reg) (s : State) : Host.Outcome State Fault Refusal :=
  .next (s.writeFlagged x (shiftedOutHigh (s.reg x)) (s.reg x <<< 1))

/-- RND with its sample given (R163). -/
def State.randomInto (s : State) (x : Reg) (kk sample : Byte) : State := (s.setReg x (sample &&& kk)).advance

/-- RND Vx,kk (R163): one sample of `rnd`, masked. -/
def execRnd (x : Reg) (kk : Byte) (s : State) : Host.Outcome State Fault Refusal :=
  .next (s.randomInto x kk s.rndByte).sampled

end Sys2Proof.Machine
end

