-- ==== Sys2Proof/Machine/Control.lean ====
section
/-! DEFINITION. The control-transfer instructions (40_cycle_and_control.md). -/

namespace Sys2Proof.Machine

/-- JP nnn (R124). -/
def execJp (nnn : Addr) (s : State) : Host.Outcome State Fault Refusal :=
  .next (s.jump (nnn.setWidth 16))

/-- CALL nnn (R125): push the address after the CALL, or halt with StackOverflow and write nothing. -/
def execCall (nnn : Addr) (s : State) : Host.Outcome State Fault Refusal :=
  match s.push (s.pc + 2) with
  | some s' => .next (s'.jump (nnn.setWidth 16))
  | none => .next (s.halt .stackOverflow (some (encode (.call nnn))) none)

/-- RET (R126): pop into PC, or halt with StackUnderflow and write nothing. -/
def execRet (s : State) : Host.Outcome State Fault Refusal :=
  match s.pop with
  | some (w, s') => .next (s'.jump w)
  | none => .next (s.halt .stackUnderflow (some (encode .ret)) none)

/-- JPO nnn (R127): nnn + V[0], not reduced. -/
def execJpo (nnn : Addr) (s : State) : Host.Outcome State Fault Refusal :=
  .next (s.jump (nnn.setWidth 16 + (s.reg 0).setWidth 16))

/-- SE Vx,kk (R129). -/
def execSe (x : Reg) (kk : Byte) (s : State) : Host.Outcome State Fault Refusal :=
  .next (s.skipIf (s.reg x == kk))

/-- SNE Vx,kk (R130). -/
def execSne (x : Reg) (kk : Byte) (s : State) : Host.Outcome State Fault Refusal :=
  .next (s.skipIf (s.reg x != kk))

/-- SER Vx,Vy (R131). -/
def execSer (x y : Reg) (s : State) : Host.Outcome State Fault Refusal :=
  .next (s.skipIf (s.reg x == s.reg y))

/-- SNER Vx,Vy (R132). -/
def execSner (x y : Reg) (s : State) : Host.Outcome State Fault Refusal :=
  .next (s.skipIf (s.reg x != s.reg y))

end Sys2Proof.Machine
end

