-- ==== Sys2Proof/Machine/Display.lean ====
section
/-! DEFINITION. The two instructions that drive the framebuffer (43_display.md). -/

namespace Sys2Proof.Machine

/-- CLS (R204): every cell clear, VF not written. -/
def execCls (s : State) : Host.Outcome State Fault Refusal :=
  .next { s.advance with fb := clearScreen }

/-- DRW with its bytes read (R205): the sprite at the latched V[x], V[y], then VF. -/
def State.drawAt (s : State) (x y : Reg) (rows : List Byte) : State :=
  let drawn := drawSprite (s.reg x).toNat (s.reg y).toNat rows s.fb
  { s with fb := drawn.1 }.setReg 0xF (flagByte drawn.2)

/-- DRW Vx,Vy,n (R205): all n bytes are read before a cell or VF changes, so a failing read changes nothing (D7, log 15). -/
def execDrw (x y : Reg) (n : BitVec 4) (s : State) : Host.Outcome State Fault Refusal :=
  match readBytes s.mem s.base n.toNat with
  | .ok rows => .next (s.drawAt x y rows).advance
  | .error a => .next (s.halt .memoryOutOfRange (some (encode (.drw x y n))) (some a))

end Sys2Proof.Machine
end

