-- ==== Sys2Proof/Machine/Index.lean ====
section
/-! DEFINITION. Address-register instructions and memory transfers (42_index_and_memory.md). None writes a flag and no
transfer changes I (R186; D23, log 21). -/

namespace Sys2Proof.Machine

/-- LDI nnn (R180). -/
def execLdi (nnn : Addr) (s : State) : Host.Outcome State Fault Refusal :=
  .next { s.advance with i := nnn }

/-- ADDI Vx (R181): modulo 4096, no flag. -/
def execAddi (x : Reg) (s : State) : Host.Outcome State Fault Refusal :=
  .next { s.advance with i := s.i + (s.reg x).setWidth 12 }

/-- LDS Vx (R182): the glyph address of the low nibble. -/
def execLds (x : Reg) (s : State) : Host.Outcome State Fault Refusal :=
  .next { s.advance with i := glyphAddr (s.reg x) }

/-- LDBCD Vx (R183): three byte writes; the ones before a failing one stay made (D7, log 15). -/
def execLdbcd (x : Reg) (s : State) : Host.Outcome State Fault Refusal :=
  let stored := storeBytes s.mem s.base (bcdDigits (s.reg x))
  .next ({ s with mem := stored.1 }.afterTransfer (.ldbcd x) stored.2)

/-- LDIR Vx (R184): V[0]..V[x] stored upward from I. -/
def execLdir (x : Reg) (s : State) : Host.Outcome State Fault Refusal :=
  let stored := storeBytes s.mem s.base (s.regsUpTo x)
  .next ({ s with mem := stored.1 }.afterTransfer (.ldir x) stored.2)

/-- LDRI Vx (R185): V[0]..V[x] loaded upward from I. -/
def execLdri (x : Reg) (s : State) : Host.Outcome State Fault Refusal :=
  let loaded := loadRegs s.mem s.base 0 (x.toNat + 1) s.v
  .next ({ s with v := loaded.1 }.afterTransfer (.ldri x) loaded.2)

end Sys2Proof.Machine
end

