-- ==== Sys2Proof/Machine/Keypad.lean ====
section
/-! DEFINITION. Keypad and timer instructions (44_keypad_and_timers.md). -/

namespace Sys2Proof.Machine

/-- SKP with its sample of `key_down` given (R221). -/
def State.skipIfKey (s : State) (x : Reg) (keys : BitVec 16) : State := s.skipIf (keyPressed keys (s.reg x))

/-- SKNP with its sample of `key_down` given (R222). -/
def State.skipIfNoKey (s : State) (x : Reg) (keys : BitVec 16) : State := s.skipIf (!keyPressed keys (s.reg x))

/-- SKP Vx (R221): the key of the whole byte V[x], sampled now. -/
def execSkp (x : Reg) (s : State) : Host.Outcome State Fault Refusal :=
  .next (s.skipIfKey x s.keyDown).sampled

/-- SKNP Vx (R222). -/
def execSknp (x : Reg) (s : State) : Host.Outcome State Fault Refusal :=
  .next (s.skipIfNoKey x s.keyDown).sampled

/-- LDKP Vx (R223): wait; PC stays at the LDKP, no register is written, `key_down` is not looked at (D11, log 13). -/
def execLdkp (x : Reg) (s : State) : Host.Outcome State Fault Refusal :=
  .next { s with run := .waitingForKey x }

/-- LDDT Vx (R225). -/
def execLddt (x : Reg) (s : State) : Host.Outcome State Fault Refusal :=
  .next (s.setReg x s.dt).advance

/-- LDDTR Vx (R226). -/
def execLddtr (x : Reg) (s : State) : Host.Outcome State Fault Refusal :=
  .next { s.advance with dt := s.reg x }

/-- LDST Vx (R227). -/
def execLdst (x : Reg) (s : State) : Host.Outcome State Fault Refusal :=
  .next { s.advance with st := s.reg x }

end Sys2Proof.Machine
end

