-- ==== Sys2Proof/Machine/Dispatch.lean ====
section
/-! DEFINITION. exec: one arm per constructor of Instr, one direct call of its meaning. -/

namespace Sys2Proof.Machine

def exec (i : Instr) (s : State) : Host.Outcome State Fault Refusal :=
  match i with
  | .cls => Sys2Proof.Machine.execCls s
  | .ret => Sys2Proof.Machine.execRet s
  | .jp nnn => Sys2Proof.Machine.execJp nnn s
  | .call nnn => Sys2Proof.Machine.execCall nnn s
  | .se x kk => Sys2Proof.Machine.execSe x kk s
  | .sne x kk => Sys2Proof.Machine.execSne x kk s
  | .ser x y => Sys2Proof.Machine.execSer x y s
  | .ld x kk => Sys2Proof.Machine.execLd x kk s
  | .add x kk => Sys2Proof.Machine.execAdd x kk s
  | .ldr x y => Sys2Proof.Machine.execLdr x y s
  | .or x y => Sys2Proof.Machine.execOr x y s
  | .and x y => Sys2Proof.Machine.execAnd x y s
  | .xor x y => Sys2Proof.Machine.execXor x y s
  | .addr x y => Sys2Proof.Machine.execAddr x y s
  | .sub x y => Sys2Proof.Machine.execSub x y s
  | .shr x => Sys2Proof.Machine.execShr x s
  | .subn x y => Sys2Proof.Machine.execSubn x y s
  | .shl x => Sys2Proof.Machine.execShl x s
  | .sner x y => Sys2Proof.Machine.execSner x y s
  | .ldi nnn => Sys2Proof.Machine.execLdi nnn s
  | .jpo nnn => Sys2Proof.Machine.execJpo nnn s
  | .rnd x kk => Sys2Proof.Machine.execRnd x kk s
  | .drw x y n => Sys2Proof.Machine.execDrw x y n s
  | .skp x => Sys2Proof.Machine.execSkp x s
  | .sknp x => Sys2Proof.Machine.execSknp x s
  | .lddt x => Sys2Proof.Machine.execLddt x s
  | .ldkp x => Sys2Proof.Machine.execLdkp x s
  | .lddtr x => Sys2Proof.Machine.execLddtr x s
  | .ldst x => Sys2Proof.Machine.execLdst x s
  | .addi x => Sys2Proof.Machine.execAddi x s
  | .lds x => Sys2Proof.Machine.execLds x s
  | .ldbcd x => Sys2Proof.Machine.execLdbcd x s
  | .ldir x => Sys2Proof.Machine.execLdir x s
  | .ldri x => Sys2Proof.Machine.execLdri x s

end Sys2Proof.Machine
end

