-- ==== Sys2Proof/Machine/Events.lean ====
section
/-! DEFINITION. The events of the host (00_scope.md R13), the cycle among them, and the output ports (10_state.md R42). -/

namespace Sys2Proof.Machine

/-- The fetch (40_cycle_and_control.md R121): `MemRead(PC, 2)`. -/
def State.fetch (s : State) : Except Nat Word := memReadWord s.mem s.pc.toNat

/-- The cycle has begun to run instructions: from here on the host may not write Memory (R290, log 18). -/
def State.start (s : State) : State := { s with started := true }

/-- One cycle in Running (R120, R122): fetch, decode, execute; a failed fetch or an Unknown word halts. -/
def cycleRunning (s : State) : Host.Outcome State Fault Refusal :=
  match s.fetch with
  | .error a => .next (s.halt .memoryOutOfRange none (some a))
  | .ok w =>
    match decode w with
    | none => .next (s.halt .invalidOpcode (some w) none)
    | some i => exec i s

/-- The event `cycle` (R120, R123): a no-op in WaitingForKey and, by D9, in Halted (log 14). -/
def cycle (s : State) : Host.Outcome State Fault Refusal :=
  match s.run with
  | .halted _ => .next s
  | .waitingForKey _ => .next s
  | .running => cycleRunning s.start

/-- A timer's decrement: 0 stays 0 (44_keypad_and_timers.md R231). -/
def countDown (t : Byte) : Byte := if t = 0 then 0 else t - 1

/-- The event `tick` (R231): both timers, in Running and in WaitingForKey (D12), nothing in Halted (D9); log 14. -/
def State.tick (s : State) : State :=
  match s.run with
  | .halted _ => s
  | .waitingForKey _ => { s with dt := countDown s.dt, st := countDown s.st }
  | .running => { s with dt := countDown s.dt, st := countDown s.st }

/-- The event `key_event(K)` (R224): it ends a wait and is dropped otherwise (D11, log 13). -/
def State.keyEvent (s : State) (k : BitVec 4) : State :=
  match s.run with
  | .waitingForKey d => { (s.setReg d (k.setWidth 8)).advance with run := .running }
  | .running => s
  | .halted _ => s

/-- The write port (10_state.md R41): `mem[addr] <- v mod 256`, or the refusal of an address out of range. -/
def hostWritePort (m : List Host.Cell) (addr v : Int) : Except PortError (List Host.Cell) :=
  if 0 ≤ addr then
    match memWrite m addr.toNat (BitVec.ofInt 8 v) with
    | .ok m' => .ok m'
    | .error _ => .error .outOfRange
  else .error .outOfRange

/-- What a request to the write port leaves in Memory: a refused one changes nothing (R41, R245). -/
def hostPoke (m : List Host.Cell) (addr v : Int) : List Host.Cell :=
  match hostWritePort m addr v with
  | .ok m' => m'
  | .error _ => m

/-- The event `host_write(addr, v)` (R41): before the first cycle only; after it the spec gives no move (R290, U12, log 18). -/
def State.hostWrite (s : State) (addr v : Int) : Host.Outcome State Fault Refusal :=
  if s.started then .fault .hostWriteAfterStart else .next { s with mem := hostPoke s.mem addr v }

/-- One event (00_scope.md R13). -/
def event (e : Event) (s : State) : Host.Outcome State Fault Refusal :=
  match e with
  | .powerOn => .next s.powerOn
  | .reset => .next s.resetEvent
  | .cycle => cycle s
  | .tick => .next s.tick
  | .keyEvent k => .next (s.keyEvent k)
  | .hostWrite addr v => s.hostWrite addr v

/-- The next event and what is left of the environment's choices: when it has chosen nothing more, a `cycle` (log 1). -/
def takeEvent (s : State) : Event × State :=
  match s.events with
  | [] => (.cycle, s)
  | e :: rest => (e, { s with events := rest })

/-- The refusal an event returns to the host component that issued it (60_exceptions.md R245): the write port's
`OutOfRange`. It is an output, no state (log 24); `none` where nothing is refused, or where the event has no move (log 18). -/
def eventRefusal (e : Event) (s : State) : Option PortError :=
  match e with
  | .hostWrite addr v =>
    if s.started then none
    else
      match hostWritePort s.mem addr v with
      | .ok _ => none
      | .error r => some r
  | .powerOn => none
  | .reset => none
  | .cycle => none
  | .tick => none
  | .keyEvent _ => none

/-- The refusal the next step returns to the host: that of the event it carries out. -/
def stepRefusal (s : State) : Option PortError := eventRefusal (takeEvent s).1 (takeEvent s).2

/-- `pixel_read(x, y)` (43_display.md R208): the cell, or the port's `OutOfRange`, never a halt. -/
def pixelRead (s : State) (x y : Int) : Except PortError Bool :=
  if h : 0 ≤ x ∧ x < 64 ∧ 0 ≤ y ∧ y < 32 then
    .ok (pixel s.fb ⟨x.toNat, by omega⟩ ⟨y.toNat, by omega⟩)
  else .error .outOfRange

/-- The output `status` (10_state.md R42). -/
def statusOut (s : State) : RunState := s.run

/-- The output `dt_out` (R42). -/
def dtOut (s : State) : Byte := s.dt

/-- The output `st_out` (R42). -/
def stOut (s : State) : Byte := s.st

/-- A word laid out in memory at an address, high byte first, where both bytes exist. -/
def placeWord (m : List Host.Cell) (a : Nat) (w : Word) : List Host.Cell :=
  match memWriteWord m a w with
  | .ok m' => m'
  | .error _ => m

end Sys2Proof.Machine
end

