-- ==== Sys2Proof/Machine/Step.lean ====
section
/-! DEFINITION. The step: one event of the environment's choice (00_scope.md R13), a `cycle` when it has chosen none. -/

namespace Sys2Proof.Machine

/-- One step: the next event, carried out on the state whose remaining choices are left (log 1). -/
def step (s : State) : Host.Outcome State Fault Refusal :=
  event (takeEvent s).1 (takeEvent s).2

/-- The table word stored where the next step fetches: at PC, high byte first. The very next step must be a `cycle` in
Running, so the environment has chosen no other event and the run state is Running (log 23). -/
def State.withFetchWord (s : State) (nbits w : Nat) : State :=
  { s with mem := placeWord s.mem s.pc.toNat (tableWord nbits w), events := [], run := .running }

end Sys2Proof.Machine
end

