-- ==== Sys2Proof/Safety.lean ====
section
/-! DEFINITION. The terms the claims use: what an instruction leaves unchanged, one predicate per kind of state; the
cells a sprite covers; the invariant of a run; and the environment's events carried out one after another. -/

namespace Sys2Proof.Machine

/-! ### What stays unchanged from `s` to `t` -/

/-- Every general register outside `dst` is unchanged. -/
def RegsKept (dst : List Reg) (s t : State) : Prop := ∀ r, r ∉ dst → t.reg r = s.reg r

/-- Every byte of memory reads as before. -/
def MemoryKept (s t : State) : Prop := ∀ a, memRead t.mem a = memRead s.mem a

/-- Every byte of memory outside the `n` bytes from address `a` on reads as before. -/
def MemoryKeptOutside (a n : Nat) (s t : State) : Prop :=
  ∀ b, b < a ∨ a + n ≤ b → memRead t.mem b = memRead s.mem b

/-- Every framebuffer cell is unchanged. -/
def ScreenKept (s t : State) : Prop := ∀ x y, pixel t.fb x y = pixel s.fb x y

/-- The stack pointer and every stack entry are unchanged. -/
def CallStackKept (s t : State) : Prop := t.sp = s.sp ∧ t.stack = s.stack

/-- Both timers are unchanged. -/
def TimersKept (s t : State) : Prop := t.dt = s.dt ∧ t.st = s.st

/-- The model's own `events` (log 1) and `started` (log 18) are unchanged. -/
def EnvironmentKept (s t : State) : Prop := t.events = s.events ∧ t.started = s.started

/-- Nothing but PC, the registers in `dst` and the count of samples may have changed. -/
def OnlyRegsAndPc (dst : List Reg) (s t : State) : Prop :=
  RegsKept dst s t ∧ t.i = s.i ∧ CallStackKept s t ∧ TimersKept s t ∧ t.run = s.run ∧ MemoryKept s t ∧
    ScreenKept s t ∧ EnvironmentKept s t

/-! ### Sprites -/

/-- The sprite of the `n` bytes at address `a`, drawn at (x0, y0), has a 1 bit for the cell (x, y): some bit-column c
and row r land on it (43_display.md R202) and the bit is set. -/
def SpriteSets (m : List Host.Cell) (a n x0 y0 : Nat) (x : Fin 64) (y : Fin 32) : Prop :=
  ∃ r c, r < n ∧ c < 8 ∧ x.val = (x0 + c) % 64 ∧ y.val = (y0 + r) % 32 ∧ (peek m (a + r)).getLsbD (7 - c) = true

/-! ### The invariant of a run -/

/-- What the record of a halted machine says is true of it (60_exceptions.md R240 to R247). -/
def RecordTrue (s : State) (r : HaltRecord) : Prop :=
  r.pc = s.pc ∧
  match r.reason with
  | .invalidOpcode => (∃ w, r.opcode = some w ∧ decode w = none) ∧ r.addr = none
  | .memoryOutOfRange =>
    (∃ a, r.addr = some a ∧ 4096 ≤ a ∧ a ≤ 0x10FE) ∧ (r.opcode = none → 0xFFE < s.pc.toNat)
  | .stackOverflow => s.sp = 16 ∧ (∃ nnn, r.opcode = some (encode (.call nnn))) ∧ r.addr = none
  | .stackUnderflow => s.sp = 0 ∧ r.opcode = some 0x00EE ∧ r.addr = none

/-- The invariant every event keeps (10_state.md R45, R28, R31; 60_exceptions.md R247). -/
structure Invariant (s : State) : Prop where
  /-- Memory is in its canonical form. -/
  memory : Memory.wf s.mem = true
  /-- PC is never above 0x10FE (R24, R45). -/
  pc : s.pc.toNat ≤ 0x10FE
  /-- Every live stack entry is a return address some CALL pushed (R28, R45). -/
  stack : ∀ k : Fin 16, k.val < s.sp.val → 2 ≤ s.stack[k].toNat ∧ s.stack[k].toNat ≤ 0x1000
  /-- The machine waits only at an instruction it has fetched. -/
  waiting : ∀ d, s.run = .waitingForKey d → s.pc.toNat ≤ 0xFFE ∧ s.started = true
  /-- The machine halts only in a cycle, and its record is true. -/
  halted : ∀ r, s.run = .halted r → RecordTrue s r ∧ s.started = true

/-! ### Events one after another -/

/-- The events of a list carried out in order, stopping at the first that does not answer a next state. -/
def runEvents : List Event → State → Host.Outcome State Fault Refusal
  | [], s => .next s
  | e :: es, s =>
    match event e s with
    | .next t => runEvents es t
    | .fault r => .fault r
    | .refused r => .refused r

/-- The instructions that can halt in their own execution (60_exceptions.md R240). -/
def mayHalt : Instr → Bool
  | .call _ => true
  | .ret => true
  | .drw _ _ _ => true
  | .ldbcd _ => true
  | .ldir _ => true
  | .ldri _ => true
  | _ => false

/-- The instructions that sample an input (10_state.md R38, R40). -/
def samplesInput : Instr → Bool
  | .rnd _ _ => true
  | .skp _ => true
  | .sknp _ => true
  | _ => false

/-- The registers an instruction may write, VF as a flag among them (10_state.md R21). -/
def writesRegs : Instr → List Reg
  | .ld x _ => [x]
  | .add x _ => [x]
  | .ldr x _ => [x]
  | .or x _ => [x]
  | .and x _ => [x]
  | .xor x _ => [x]
  | .addr x _ => [x, 15]
  | .sub x _ => [x, 15]
  | .subn x _ => [x, 15]
  | .shr x => [x, 15]
  | .shl x => [x, 15]
  | .rnd x _ => [x]
  | .drw _ _ _ => [15]
  | .lddt x => [x]
  | .ldri x => (List.range (x.toNat + 1)).map (BitVec.ofNat 4)
  | _ => []

end Sys2Proof.Machine
end

