-- ==== Sys2Proof/Certificates/Slice0/Obligations.lean ====
section
/-! DEFINITION. The statements for the provers. Each docstring names the rules of spec/ it formalises and, where it rests on
a decision of the spec or a choice of the model, says so and names the log entry. -/

open Sys2Proof Sys2Proof.Machine

/-! ### Encoding -/

/-- Words written out from the spec's encodings decode to the instructions they stand for: the source's anchors 0x6005,
0x7003, 0x0000, 0xFFFF (30_encoding.md R95) and one word per family, from the patterns the spec supplies from general
knowledge (GK1, log 6). That 0x5121, 0x8128, 0x0123 and 0xF10B are Unknown is strict decoding, the spec's decision D3 and
the model's choice with it (log 7, DESIGN CHOICE), no rule of the source. -/
def Obligations.KnownWordsDecode : Prop :=
  decode 0x6005 = some (.ld 0 0x05) ∧ decode 0x7003 = some (.add 0 0x03) ∧
  decode 0x0000 = none ∧ decode 0xFFFF = none ∧
  decode 0x00EE = some .ret ∧ decode 0x2345 = some (.call 0x345) ∧ decode 0x9120 = some (.sner 1 2) ∧
  decode 0x812E = some (.shl 1) ∧ decode 0x8124 = some (.addr 1 2) ∧ decode 0xF21E = some (.addi 2) ∧
  decode 0xD013 = some (.drw 0 1 3) ∧ decode 0xE4A1 = some (.sknp 4) ∧ decode 0xF10A = some (.ldkp 1) ∧
  decode 0x5121 = none ∧ decode 0x8128 = none ∧ decode 0x0123 = none ∧ decode 0xF10B = none

/-- No bit of an encoding is dropped: decoding the word of any instruction gives the instruction back, with every operand
at every value (30_encoding.md R92, R96 to R101; selectors GK1, log 6). -/
def Obligations.DecodeOfEncode : Prop :=
  ∀ i : Instr, decode (encode i) = some i

/-- Every recognised word is the word of its instruction, but for the ignored field y of SHR and SHL, which the encoder
writes as 0 (R92: every bit of a recognised word is a field or a selector, except y in SHR and SHL; R104, log 20). -/
def Obligations.EncodeOfDecode : Prop :=
  ∀ (w : Word) (i : Instr), decode w = some i →
    encode i = if i.mnemonic = "SHR" ∨ i.mnemonic = "SHL" then w &&& 0xFF0F else w

/-- The decoding algorithm and the opcode table agree on all 65536 words (R101, R102): a word is Unknown exactly when it
selects no row, and a row it selects has its instruction's mnemonic, so no word selects two. -/
def Obligations.DecodeAgreesWithTable : Prop :=
  ∀ w : Word, (decode w = none ↔ recognised w = false) ∧
    ∀ i, decode w = some i → ∀ r ∈ opcodeTable, r.selects w = true → r.mnemonic = i.mnemonic

/-! ### Memory -/

/-- `MemRead(addr, 1)` (20_memory.md R61): in range it returns the byte at the address; out of range it fails, with that
address. -/
def Obligations.ByteReadChecksRange : Prop :=
  ∀ (m : List Host.Cell) (a : Nat),
    (a ≤ 4095 → memRead m a = .ok (peek m a)) ∧ (4095 < a → memRead m a = .error a)

/-- Mixed widths (R65): what a byte write or a word write leaves is what byte and word reads see, modulo 256 and 65536,
high byte at the lower address, every other byte unchanged; and in any memory a word read is made of the two bytes that
byte reads of the same addresses give. -/
def Obligations.MixedWidthAccess : Prop :=
  ∀ (m : List Host.Cell) (a v : Nat),
    (a ≤ 4095 → ∃ m', memWrite m a (BitVec.ofNat 8 v) = .ok m' ∧
      (∃ b, memRead m' a = .ok b ∧ b.toNat = v % 256) ∧ ∀ c, c ≠ a → memRead m' c = memRead m c) ∧
    (a ≤ 4094 → ∃ m', memWriteWord m a (BitVec.ofNat 16 v) = .ok m' ∧
      (∃ w, memReadWord m' a = .ok w ∧ w.toNat = v % 65536) ∧
      (∃ b, memRead m' a = .ok b ∧ b.toNat = v / 256 % 256) ∧
      (∃ b, memRead m' (a + 1) = .ok b ∧ b.toNat = v % 256) ∧
      ∀ c, c ≠ a → c ≠ a + 1 → memRead m' c = memRead m c) ∧
    (a ≤ 4094 → ∃ hi lo w, memRead m a = .ok hi ∧ memRead m (a + 1) = .ok lo ∧ memReadWord m a = .ok w ∧
      w.toNat = hi.toNat * 256 + lo.toNat)

/-- A 16-bit access whose second byte is beyond 4095 fails before it touches a byte (R63, R64), with the first address
that is out of range. -/
def Obligations.WordAccessChecksBothBytes : Prop :=
  ∀ (m : List Host.Cell) (a : Nat) (w : Word), 4094 < a →
    memReadWord m a = .error (max a 4096) ∧ memWriteWord m a w = .error (max a 4096)

/-! ### The step, the cycle, the events -/

/-- A step runs the decoded instruction (40_cycle_and_control.md R120, R121): in Running, with the environment's next
choice a `cycle`, stated or by default (log 1), the word at PC is executed on the state whose remaining choices are left
and in which the model's `started` holds (log 18). -/
def Obligations.StepRunsDecodedInstruction : Prop :=
  ∀ (s : State) (b0 b1 : Byte) (i : Instr), s.run = .running →
    memRead s.mem s.pc.toNat = .ok b0 → memRead s.mem (s.pc.toNat + 1) = .ok b1 →
    decode (wordOfBytes b0 b1) = some i →
    (s.events = [] → step s = exec i s.start) ∧
    (∀ rest, s.events = .cycle :: rest → step s = exec i { s with events := rest }.start)

/-- An instruction's own word placed at PC by `withFetchWord` (the model's stand-in for a load, log 23, DEDUCED) is run by
the very next step, and every byte outside the two placed reads as before. The placing also sets the run state to Running
and empties the environment's choices, so the premise leaves out no wait and no halt, and the next event is the default
`cycle` (log 1); the instruction runs on the started state (log 18). That the fetch sees the stored bytes is 20_memory.md
R74. -/
def Obligations.PlacedInstructionRuns : Prop :=
  ∀ (s : State) (i : Instr), s.pc.toNat ≤ 0xFFE →
    step (s.withFetchWord 16 (encode i).toNat) = exec i (s.withFetchWord 16 (encode i).toNat).start ∧
    MemoryKeptOutside s.pc.toNat 2 s (s.withFetchWord 16 (encode i).toNat)

/-- An Unknown word halts with InvalidOpcode, pc and opcode recorded, and nothing else of the spec's state changes (R120,
R133; 60_exceptions.md R241). The next choice is a `cycle`, stated or by default (log 1), it is taken, and the model's own
`started` holds afterwards (log 18, DESIGN CHOICE). -/
def Obligations.UnknownWordHalts : Prop :=
  ∀ (s : State) (b0 b1 : Byte), s.run = .running →
    memRead s.mem s.pc.toNat = .ok b0 → memRead s.mem (s.pc.toNat + 1) = .ok b1 →
    decode (wordOfBytes b0 b1) = none →
    (s.events = [] → step s = .next { s with
      run := .halted ⟨.invalidOpcode, s.pc, some (wordOfBytes b0 b1), none⟩, started := true }) ∧
    (∀ rest, s.events = .cycle :: rest → step s = .next { s with
      run := .halted ⟨.invalidOpcode, s.pc, some (wordOfBytes b0 b1), none⟩, started := true, events := rest })

/-- A fetch beyond 0xFFE halts with MemoryOutOfRange, no word recorded, at the first address out of range, and nothing
else of the spec's state changes (R121). That PC is not reduced before the fetch is decision D4 (log 8), the record D8 of
60_exceptions.md R242 (log 16). The next choice is a `cycle`, stated or by default (log 1), it is taken, and the model's
own `started` holds afterwards (log 18, DESIGN CHOICE). -/
def Obligations.FetchBeyondMemoryHalts : Prop :=
  ∀ s : State, s.run = .running → 0xFFE < s.pc.toNat →
    (s.events = [] → step s = .next { s with
      run := .halted ⟨.memoryOutOfRange, s.pc, none, some (if s.pc.toNat = 0xFFF then 0x1000 else s.pc.toNat)⟩,
      started := true }) ∧
    (∀ rest, s.events = .cycle :: rest → step s = .next { s with
      run := .halted ⟨.memoryOutOfRange, s.pc, none, some (if s.pc.toNat = 0xFFF then 0x1000 else s.pc.toNat)⟩,
      started := true, events := rest })

/-- A cycle outside Running changes nothing (R123; in Halted by decision D9, log 14); as a step, whose next choice is a
`cycle`, stated or by default (log 1), nothing but the choice taken. -/
def Obligations.CycleOutsideRunningIsNoOp : Prop :=
  ∀ s : State, s.run ≠ .running → cycle s = .next s ∧ (s.events = [] → step s = .next s) ∧
    ∀ rest, s.events = .cycle :: rest → step s = .next { s with events := rest }

/-- The environment's choices are carried out in order, each as one atomic event (00_scope.md R13, D1, log 1): as many
steps as there are choices give what the events give one after another. -/
def Obligations.StepsCarryOutEventsInOrder : Prop :=
  ∀ (es : List Event) (s : State),
    Sys2Proof.core.run es.length { s with events := es } = runEvents es { s with events := [] }

/-- Whatever a step answers with a next state keeps the invariant (10_state.md R45, R28): memory canonical, PC at most
0x10FE (not reduced: D4, log 8), live stack entries return addresses; the machine waits or is halted only after a start
(the model's `started`, log 18), and a halt record is true (its fields: D8, log 16). -/
def Obligations.StepKeepsInvariant : Prop :=
  ∀ s t : State, Invariant s → step s = .next t → Invariant t

/-- The state right after power_on meets the invariant. -/
def Obligations.ResetMeetsInvariant : Prop := Invariant State.reset

/-- The state right after power_on, where the spec gives the value (10_state.md R44): V, I, SP, DT, ST 0, PC 0x200, every
byte and every cell 0, Running. That State.reset is the state after power_on is log 17. -/
def Obligations.ResetValues : Prop :=
  (∀ r, State.reset.reg r = 0) ∧ State.reset.pc = 0x200 ∧ State.reset.i = 0 ∧ State.reset.sp = 0 ∧
  State.reset.dt = 0 ∧ State.reset.st = 0 ∧ State.reset.run = .running ∧
  (∀ a, a ≤ 4095 → memRead State.reset.mem a = .ok 0) ∧ ∀ x y, pixel State.reset.fb x y = false

/-- The events power_on and reset (70_reset_and_hazards.md R280, R281), from any state: the same but that power_on fills
memory with 0 and reset keeps it (D16, log 17). Both are taken from the environment's choices (log 1), and after both the
model's own `started` is false, so host_write is licensed again (D20, log 18, DESIGN CHOICE). -/
def Obligations.PowerOnAndResetEvents : Prop :=
  ∀ (s : State) (e : Event) (rest : List Event), s.events = e :: rest → e = .powerOn ∨ e = .reset →
    ∃ t, step s = .next t ∧ (∀ r, t.reg r = 0) ∧ t.pc = 0x200 ∧ t.i = 0 ∧ t.sp = 0 ∧ t.dt = 0 ∧ t.st = 0 ∧
      t.run = .running ∧ (∀ x y, pixel t.fb x y = false) ∧ t.events = rest ∧ t.started = false ∧
      (e = .powerOn → ∀ a, a ≤ 4095 → memRead t.mem a = .ok 0) ∧ (e = .reset → MemoryKept s t)

/-- The run state and all its transitions (10_state.md R31): Running to WaitingForKey(x) only by a cycle that executes
LDKP Vx, WaitingForKey to Running only by a key_event, Running to Halted only by a cycle, anything to Running by reset or
power_on, initially Running with PC = 0x200, and no other transition. -/
def Obligations.RunStateTransitions : Prop :=
  (State.reset.run = .running ∧ State.reset.pc = 0x200) ∧
  (∀ s t : State, step s = .next t → ((takeEvent s).1 = .powerOn ∨ (takeEvent s).1 = .reset) → t.run = .running) ∧
  (∀ s t : State, step s = .next t → t.run ≠ s.run →
    ((takeEvent s).1 = .powerOn ∨ (takeEvent s).1 = .reset) ∨
    (s.run = .running ∧ (takeEvent s).1 = .cycle ∧
      ((∃ x w, s.fetch = .ok w ∧ decode w = some (.ldkp x) ∧ t.run = .waitingForKey x) ∨ ∃ r, t.run = .halted r)) ∨
    (∃ d k, s.run = .waitingForKey d ∧ (takeEvent s).1 = .keyEvent k ∧ t.run = .running)) ∧
  (∀ (s : State) (x : Reg) (w : Word), s.run = .running → (takeEvent s).1 = .cycle → s.fetch = .ok w →
    decode w = some (.ldkp x) → ∃ t, step s = .next t ∧ t.run = .waitingForKey x) ∧
  (∀ (s : State) (d : Reg) (k : BitVec 4), s.run = .waitingForKey d → (takeEvent s).1 = .keyEvent k →
    ∃ t, step s = .next t ∧ t.run = .running)

/-- Halted is terminal (60_exceptions.md R249, D9, log 14): after a start, an event that is neither power_on nor reset
leaves a halted machine exactly as it was, but for the choice taken. -/
def Obligations.HaltedIsTerminal : Prop :=
  ∀ (s t : State) (r : HaltRecord), s.run = .halted r → s.started = true → step s = .next t →
    (takeEvent s).1 ≠ .powerOn → (takeEvent s).1 ≠ .reset → t = (takeEvent s).2

/-! ### All instructions -/

/-- Every instruction answers a next state in every state, leaves the environment's fields alone, and takes one sample of
an input exactly when it is RND, SKP or SKNP (10_state.md R38, R40; 60_exceptions.md R240: an error is a next state). -/
def Obligations.EveryInstructionAnswers : Prop :=
  ∀ (i : Instr) (s : State), ∃ t, exec i s = .next t ∧ EnvironmentKept s t ∧
    t.samples = s.samples + (if samplesInput i then 1 else 0)

/-- Only LDKP suspends, only six instructions can halt, and a halt leaves PC and is recorded with its own address and
word (60_exceptions.md R240, R247; the record's fields are D8, log 16). -/
def Obligations.OnlySixInstructionsHalt : Prop :=
  ∀ (i : Instr) (s t : State), exec i s = .next t → t.run ≠ s.run →
    (∃ x, i = .ldkp x ∧ t.run = .waitingForKey x) ∨
    (mayHalt i = true ∧ t.pc = s.pc ∧
      ∃ r, t.run = .halted r ∧ r.pc = s.pc ∧ r.opcode = some (encode i) ∧ r.reason ≠ .invalidOpcode)

/-- No instruction writes a general register it does not name, VF as a flag among the named (10_state.md R21, R22; the
instructions that write no flag by D23, log 21). -/
def Obligations.OnlyNamedRegistersWritten : Prop :=
  ∀ (i : Instr) (s t : State), exec i s = .next t → RegsKept (writesRegs i) s t

/-- Each other piece of state is written by its own instructions alone (10_state.md R25 to R30, R34, R35; 20_memory.md
R67): memory by LDBCD and LDIR, cells by CLS and DRW, stack by CALL and RET, DT by LDDTR, ST by LDST, I by LDI, ADDI and
LDS. -/
def Obligations.OnlyNamedPartsWritten : Prop :=
  ∀ (i : Instr) (s t : State), exec i s = .next t →
    (MemoryKept s t ∨ ∃ x, i = .ldbcd x ∨ i = .ldir x) ∧
    (ScreenKept s t ∨ i = .cls ∨ ∃ x y n, i = .drw x y n) ∧
    (CallStackKept s t ∨ i = .ret ∨ ∃ nnn, i = .call nnn) ∧
    (t.dt = s.dt ∨ ∃ x, i = .lddtr x) ∧
    (t.st = s.st ∨ ∃ x, i = .ldst x) ∧
    (t.i = s.i ∨ (∃ nnn, i = .ldi nnn) ∨ (∃ x, i = .addi x) ∨ ∃ x, i = .lds x)

/-- How PC moves (10_state.md R24), for every instruction: unchanged by LDKP and by a halt; the target of JP, CALL, JPO,
RET; PC + 2 or PC + 4 for the skips; PC + 2 for every other. -/
def Obligations.ProgramCounterMoves : Prop :=
  ∀ (i : Instr) (s t : State), exec i s = .next t →
    match i with
    | .jp nnn => t.pc.toNat = nnn.toNat
    | .call nnn => t.pc.toNat = nnn.toNat ∨ (s.sp.val = 16 ∧ t.pc = s.pc)
    | .ret => (∃ k : Fin 16, s.sp.val = k.val + 1 ∧ t.pc = s.stack[k]) ∨ (s.sp.val = 0 ∧ t.pc = s.pc)
    | .jpo nnn => t.pc.toNat = nnn.toNat + (s.reg 0).toNat
    | .ldkp _ => t.pc = s.pc
    | .se _ _ | .sne _ _ | .ser _ _ | .sner _ _ | .skp _ | .sknp _ => t.pc = s.pc + 2 ∨ t.pc = s.pc + 4
    | .drw _ _ _ | .ldbcd _ | .ldir _ | .ldri _ => t.pc = s.pc + 2 ∨ ∃ r, t.run = .halted r ∧ t.pc = s.pc
    | _ => t.pc = s.pc + 2

/-! ### Registers and ALU -/

/-- LD Vx,kk (41_alu.md R152): the word 6xkk, V[x] = kk, nothing else but PC. -/
def Obligations.LdLoadsImmediate : Prop :=
  ∀ (x : Reg) (kk : Byte) (s : State),
    decode (wordFXKK 6 x kk) = some (.ld x kk) ∧
    ∃ t, exec (.ld x kk) s = .next t ∧ t.reg x = kk ∧ t.pc = s.pc + 2 ∧ t.samples = s.samples ∧ OnlyRegsAndPc [x] s t

/-- ADD Vx,kk (R154): the word 7xkk, V[x] = (V[x] + kk) mod 256, no flag, nothing else but PC. -/
def Obligations.AddImmediateWraps : Prop :=
  ∀ (x : Reg) (kk : Byte) (s : State),
    decode (wordFXKK 7 x kk) = some (.add x kk) ∧
    ∃ t, exec (.add x kk) s = .next t ∧ (t.reg x).toNat = ((s.reg x).toNat + kk.toNat) % 256 ∧
      t.pc = s.pc + 2 ∧ t.samples = s.samples ∧ OnlyRegsAndPc [x] s t

/-- LDR, OR, AND, XOR (R153, R155, R156, R157), bit by bit, with no flag (D23, log 21). -/
def Obligations.CopyAndLogic : Prop :=
  ∀ (x y : Reg) (s : State),
    (∃ t, exec (.ldr x y) s = .next t ∧ t.reg x = s.reg y ∧
      t.pc = s.pc + 2 ∧ t.samples = s.samples ∧ OnlyRegsAndPc [x] s t) ∧
    (∃ t, exec (.or x y) s = .next t ∧
      (∀ k, (t.reg x).getLsbD k = ((s.reg x).getLsbD k || (s.reg y).getLsbD k)) ∧
      t.pc = s.pc + 2 ∧ t.samples = s.samples ∧ OnlyRegsAndPc [x] s t) ∧
    (∃ t, exec (.and x y) s = .next t ∧
      (∀ k, (t.reg x).getLsbD k = ((s.reg x).getLsbD k && (s.reg y).getLsbD k)) ∧
      t.pc = s.pc + 2 ∧ t.samples = s.samples ∧ OnlyRegsAndPc [x] s t) ∧
    (∃ t, exec (.xor x y) s = .next t ∧
      (∀ k, (t.reg x).getLsbD k = ((s.reg x).getLsbD k != (s.reg y).getLsbD k)) ∧
      t.pc = s.pc + 2 ∧ t.samples = s.samples ∧ OnlyRegsAndPc [x] s t)

/-- ADDR (R158): sum modulo 256, the carry in VF; with x = 15 the result stays in VF (R164, from the source's row). -/
def Obligations.AddrReportsCarry : Prop :=
  ∀ (x y : Reg) (s : State), ∃ t, exec (.addr x y) s = .next t ∧
    (t.reg x).toNat = ((s.reg x).toNat + (s.reg y).toNat) % 256 ∧
    (x ≠ 15 → (t.reg 15).toNat = if (s.reg x).toNat + (s.reg y).toNat > 255 then 1 else 0) ∧
    t.pc = s.pc + 2 ∧ t.samples = s.samples ∧ OnlyRegsAndPc [x, 15] s t

/-- SUB and SUBN (R159, R160): the difference modulo 256 of the old values, not-borrow in VF; where x or y is 15 this is
the spec's decision D5 (R150, R164, log 11). -/
def Obligations.SubReportsNotBorrow : Prop :=
  ∀ (x y : Reg) (s : State),
    (∃ t, exec (.sub x y) s = .next t ∧
      ((t.reg x).toNat : Int) = ((s.reg x).toNat - (s.reg y).toNat : Int) % 256 ∧
      (x ≠ 15 → (t.reg 15).toNat = if (s.reg x).toNat ≥ (s.reg y).toNat then 1 else 0) ∧
      t.pc = s.pc + 2 ∧ t.samples = s.samples ∧ OnlyRegsAndPc [x, 15] s t) ∧
    (∃ t, exec (.subn x y) s = .next t ∧
      ((t.reg x).toNat : Int) = ((s.reg y).toNat - (s.reg x).toNat : Int) % 256 ∧
      (x ≠ 15 → (t.reg 15).toNat = if (s.reg y).toNat ≥ (s.reg x).toNat then 1 else 0) ∧
      t.pc = s.pc + 2 ∧ t.samples = s.samples ∧ OnlyRegsAndPc [x, 15] s t)

/-- SHR and SHL (R161, R162): one position, the bit shifted out in VF, the result 8 bits wide; with x = 15 the result
stays in VF (D5, log 11). -/
def Obligations.ShiftsReportBitShiftedOut : Prop :=
  ∀ (x : Reg) (s : State),
    (∃ t, exec (.shr x) s = .next t ∧ (t.reg x).toNat = (s.reg x).toNat / 2 ∧
      (x ≠ 15 → (t.reg 15).toNat = (s.reg x).toNat % 2) ∧
      t.pc = s.pc + 2 ∧ t.samples = s.samples ∧ OnlyRegsAndPc [x, 15] s t) ∧
    (∃ t, exec (.shl x) s = .next t ∧ (t.reg x).toNat = 2 * (s.reg x).toNat % 256 ∧
      (x ≠ 15 → (t.reg 15).toNat = (s.reg x).toNat / 128) ∧
      t.pc = s.pc + 2 ∧ t.samples = s.samples ∧ OnlyRegsAndPc [x, 15] s t)

/-- RND (R163): the sample of `rnd` ANDed with kk, whatever the sample (free value Config.rndByte, log 3): the result has
a 0 wherever kk has a 0, and the next sample is a fresh one. -/
def Obligations.RndMasksSample : Prop :=
  ∀ (x : Reg) (kk : Byte) (s : State), ∃ t, exec (.rnd x kk) s = .next t ∧
    (∀ k, (t.reg x).getLsbD k = ((Config.rndByte s.samples).getLsbD k && kk.getLsbD k)) ∧
    t.pc = s.pc + 2 ∧ t.samples = s.samples + 1 ∧ OnlyRegsAndPc [x] s t

/-! ### Control transfer -/

/-- SE, SNE, SER, SNER (40_cycle_and_control.md R128 to R132): PC + 4 when the condition holds, else PC + 2, and nothing
but PC. -/
def Obligations.CompareSkips : Prop :=
  ∀ (x y : Reg) (kk : Byte) (s : State),
    (∃ t, exec (.se x kk) s = .next t ∧ (s.reg x = kk → t.pc = s.pc + 4) ∧ (s.reg x ≠ kk → t.pc = s.pc + 2) ∧
      t.samples = s.samples ∧ OnlyRegsAndPc [] s t) ∧
    (∃ t, exec (.sne x kk) s = .next t ∧ (s.reg x ≠ kk → t.pc = s.pc + 4) ∧ (s.reg x = kk → t.pc = s.pc + 2) ∧
      t.samples = s.samples ∧ OnlyRegsAndPc [] s t) ∧
    (∃ t, exec (.ser x y) s = .next t ∧ (s.reg x = s.reg y → t.pc = s.pc + 4) ∧
      (s.reg x ≠ s.reg y → t.pc = s.pc + 2) ∧ t.samples = s.samples ∧ OnlyRegsAndPc [] s t) ∧
    (∃ t, exec (.sner x y) s = .next t ∧ (s.reg x ≠ s.reg y → t.pc = s.pc + 4) ∧
      (s.reg x = s.reg y → t.pc = s.pc + 2) ∧ t.samples = s.samples ∧ OnlyRegsAndPc [] s t)

/-- JP and JPO (R124, R127): the target is nnn, or nnn + V[0] not reduced (D4, log 8), and nothing but PC. -/
def Obligations.JumpsSetProgramCounter : Prop :=
  ∀ (nnn : Addr) (s : State),
    (∃ t, exec (.jp nnn) s = .next t ∧ t.pc.toNat = nnn.toNat ∧ t.samples = s.samples ∧ OnlyRegsAndPc [] s t) ∧
    (∃ t, exec (.jpo nnn) s = .next t ∧ t.pc.toNat = nnn.toNat + (s.reg 0).toNat ∧ t.samples = s.samples ∧
      OnlyRegsAndPc [] s t)

/-- CALL with room on the stack (R125): the entry at SP is PC + 2, SP is one higher, PC is nnn, every other entry and
everything else is unchanged. -/
def Obligations.CallPushesReturnAddress : Prop :=
  ∀ (nnn : Addr) (s : State), s.sp.val < 16 → ∃ t, exec (.call nnn) s = .next t ∧
    t.pc.toNat = nnn.toNat ∧ t.sp.val = s.sp.val + 1 ∧
    (∀ k : Fin 16, t.stack[k] = if k.val = s.sp.val then s.pc + 2 else s.stack[k]) ∧
    RegsKept [] s t ∧ t.i = s.i ∧ TimersKept s t ∧ t.run = s.run ∧ MemoryKept s t ∧ ScreenKept s t ∧
    EnvironmentKept s t ∧ t.samples = s.samples

/-- RET with an entry on the stack (R126): PC is the entry below SP, SP is one lower, the entries and everything else are
unchanged. -/
def Obligations.RetPopsReturnAddress : Prop :=
  ∀ (s : State) (k : Fin 16), s.sp.val = k.val + 1 → ∃ t, exec .ret s = .next t ∧
    t.pc = s.stack[k] ∧ t.sp.val = k.val ∧ t.stack = s.stack ∧
    RegsKept [] s t ∧ t.i = s.i ∧ TimersKept s t ∧ t.run = s.run ∧ MemoryKept s t ∧ ScreenKept s t ∧
    EnvironmentKept s t ∧ t.samples = s.samples

/-- CALL at full depth halts with StackOverflow, RET on an empty stack with StackUnderflow, and nothing else changes
(R125, R126; 60_exceptions.md R243, R244, whose record fields are D8, log 16). -/
def Obligations.StackErrorsHalt : Prop :=
  (∀ (nnn : Addr) (s : State), s.sp.val = 16 →
    exec (.call nnn) s = .next { s with run := .halted ⟨.stackOverflow, s.pc, some (encode (.call nnn)), none⟩ }) ∧
  (∀ s : State, s.sp.val = 0 →
    exec .ret s = .next { s with run := .halted ⟨.stackUnderflow, s.pc, some 0x00EE, none⟩ })

/-- A RET after a CALL, in any state that has the SP the CALL left and still holds the CALL's own entry, returns behind the
CALL with SP as it was before it (R125, R126, 10_state.md R28): the entries above that one may hold anything, so a
subroutine that itself called and returned is covered. -/
def Obligations.RetReturnsBehindCall : Prop :=
  ∀ (nnn : Addr) (s t u : State) (k : Fin 16), s.sp.val = k.val → exec (.call nnn) s = .next t → u.sp = t.sp →
    u.stack[k] = t.stack[k] → ∃ v, exec .ret u = .next v ∧ v.pc = s.pc + 2 ∧ v.sp = s.sp

/-! ### I and memory transfers -/

/-- LDI and ADDI (42_index_and_memory.md R180, R181): I = nnn, I = (I + V[x]) mod 4096, no flag, nothing else but PC. -/
def Obligations.LdiAddiSetIndex : Prop :=
  ∀ (nnn : Addr) (x : Reg) (s : State),
    (∃ t, exec (.ldi nnn) s = .next t ∧ t.i = nnn ∧ t.pc = s.pc + 2 ∧ t.samples = s.samples ∧
      OnlyRegsAndPc [] s { t with i := s.i }) ∧
    (∃ t, exec (.addi x) s = .next t ∧ t.i.toNat = (s.i.toNat + (s.reg x).toNat) % 4096 ∧ t.pc = s.pc + 2 ∧
      t.samples = s.samples ∧ OnlyRegsAndPc [] s { t with i := s.i })

/-- LDS (R182): I = FONT_BASE + 5 * the low nibble of V[x], below 0x200 for every admissible FONT_BASE (an OPEN parameter,
D14, log 4; the stride 5 is the spec's general knowledge, log 5); nothing else but PC. -/
def Obligations.LdsPointsAtGlyph : Prop :=
  ∀ (x : Reg) (s : State), ∃ t, exec (.lds x) s = .next t ∧
    t.i.toNat = Config.fontBase.val + 5 * ((s.reg x).toNat % 16) ∧ t.i.toNat + 4 ≤ 0x1FF ∧ t.pc = s.pc + 2 ∧
    t.samples = s.samples ∧ OnlyRegsAndPc [] s { t with i := s.i }

/-- LDBCD where its three bytes lie in memory (R183): hundreds, tens and ones at I, I + 1, I + 2, nothing else but PC; I
unchanged (D23, log 21). -/
def Obligations.LdbcdStoresDigits : Prop :=
  ∀ (x : Reg) (s : State), s.base + 2 ≤ 4095 → ∃ t h d o, exec (.ldbcd x) s = .next t ∧
    memRead t.mem s.base = .ok h ∧ memRead t.mem (s.base + 1) = .ok d ∧ memRead t.mem (s.base + 2) = .ok o ∧
    (s.reg x).toNat = 100 * h.toNat + 10 * d.toNat + o.toNat ∧ d.toNat ≤ 9 ∧ o.toNat ≤ 9 ∧
    MemoryKeptOutside s.base 3 s t ∧ t.pc = s.pc + 2 ∧ t.samples = s.samples ∧
    OnlyRegsAndPc [] s { t with mem := s.mem }

/-- LDIR where its x + 1 bytes lie in memory (R184): V[k] at I + k, nothing else but PC; I unchanged (D23, log 21). -/
def Obligations.LdirStoresRegisters : Prop :=
  ∀ (x : Reg) (s : State), s.base + x.toNat ≤ 4095 → ∃ t, exec (.ldir x) s = .next t ∧
    (∀ r : Reg, r.toNat ≤ x.toNat → memRead t.mem (s.base + r.toNat) = .ok (s.reg r)) ∧
    MemoryKeptOutside s.base (x.toNat + 1) s t ∧ t.pc = s.pc + 2 ∧ t.samples = s.samples ∧
    OnlyRegsAndPc [] s { t with mem := s.mem }

/-- LDRI where its x + 1 bytes lie in memory (R185): V[k] is the byte at I + k, the registers above x and everything else
but PC unchanged; I unchanged (D23, log 21). -/
def Obligations.LdriLoadsRegisters : Prop :=
  ∀ (x : Reg) (s : State), s.base + x.toNat ≤ 4095 → ∃ t, exec (.ldri x) s = .next t ∧
    (∀ r : Reg, r.toNat ≤ x.toNat → memRead s.mem (s.base + r.toNat) = .ok (t.reg r)) ∧
    (∀ r : Reg, x.toNat < r.toNat → t.reg r = s.reg r) ∧ t.pc = s.pc + 2 ∧ t.samples = s.samples ∧
    OnlyRegsAndPc [] s { t with v := s.v }

/-- A store that runs past 4095 halts with MemoryOutOfRange at 0x1000, PC unchanged, with the bytes below 0x1000 stored
and every other byte and everything else unchanged: LDBCD and LDIR (R183, R184, 60_exceptions.md R242; that the earlier
transfers stay made is D7, log 15, the record D8, log 16). -/
def Obligations.StoresPastMemoryHalt : Prop :=
  (∀ (x : Reg) (s : State), 4095 < s.base + 2 → ∃ t, exec (.ldbcd x) s = .next t ∧
    t.run = .halted ⟨.memoryOutOfRange, s.pc, some (encode (.ldbcd x)), some 0x1000⟩ ∧ t.pc = s.pc ∧
    memRead t.mem s.base = .ok (BitVec.ofNat 8 ((s.reg x).toNat / 100)) ∧
    (s.base = 0xFFE → memRead t.mem 0xFFF = .ok (BitVec.ofNat 8 ((s.reg x).toNat / 10 % 10))) ∧
    MemoryKeptOutside s.base 3 s t ∧ t.samples = s.samples ∧
    OnlyRegsAndPc [] s { t with mem := s.mem, run := s.run }) ∧
  (∀ (x : Reg) (s : State), 4095 < s.base + x.toNat → ∃ t, exec (.ldir x) s = .next t ∧
    t.run = .halted ⟨.memoryOutOfRange, s.pc, some (encode (.ldir x)), some 0x1000⟩ ∧ t.pc = s.pc ∧
    (∀ r : Reg, r.toNat ≤ x.toNat → s.base + r.toNat ≤ 4095 → memRead t.mem (s.base + r.toNat) = .ok (s.reg r)) ∧
    MemoryKeptOutside s.base (x.toNat + 1) s t ∧ t.samples = s.samples ∧
    OnlyRegsAndPc [] s { t with mem := s.mem, run := s.run })

/-- A load that runs past 4095 halts with MemoryOutOfRange at 0x1000: LDRI keeps the registers loaded before (R185), DRW
has changed nothing (43_display.md R205); both are D7 (log 15), the record D8 (log 16). -/
def Obligations.LoadsPastMemoryHalt : Prop :=
  (∀ (x : Reg) (s : State), 4095 < s.base + x.toNat → ∃ t, exec (.ldri x) s = .next t ∧
    t.run = .halted ⟨.memoryOutOfRange, s.pc, some (encode (.ldri x)), some 0x1000⟩ ∧ t.pc = s.pc ∧
    (∀ r : Reg, r.toNat ≤ x.toNat → s.base + r.toNat ≤ 4095 →
      memRead s.mem (s.base + r.toNat) = .ok (t.reg r)) ∧
    (∀ r : Reg, x.toNat < r.toNat ∨ 4095 < s.base + r.toNat → t.reg r = s.reg r) ∧ t.samples = s.samples ∧
    OnlyRegsAndPc [] s { t with v := s.v, run := s.run }) ∧
  (∀ (x y : Reg) (n : BitVec 4) (s : State), n ≠ 0 → 4096 < s.base + n.toNat →
    exec (.drw x y n) s = .next { s with
      run := .halted ⟨.memoryOutOfRange, s.pc, some (encode (.drw x y n)), some 0x1000⟩ })

/-- LDIR then LDRI (R187): from any state with the same I in which the stored bytes still read as LDIR left them, LDRI
gives V0..Vx the values they had at the LDIR. -/
def Obligations.StoredRegistersLoadBack : Prop :=
  ∀ (x : Reg) (s t u : State), s.base + x.toNat ≤ 4095 → exec (.ldir x) s = .next t → u.i = t.i →
    (∀ a, s.base ≤ a → a ≤ s.base + x.toNat → memRead u.mem a = memRead t.mem a) →
    ∃ v, exec (.ldri x) u = .next v ∧ ∀ r : Reg, r.toNat ≤ x.toNat → v.reg r = s.reg r

/-! ### Display -/

/-- CLS (43_display.md R201, R204): every cell clear, nothing else but PC. -/
def Obligations.ClsClearsEveryCell : Prop :=
  ∀ s : State, ∃ t, exec .cls s = .next t ∧ (∀ x y, pixel t.fb x y = false) ∧ t.pc = s.pc + 2 ∧
    t.samples = s.samples ∧ OnlyRegsAndPc [] s { t with fb := s.fb }

/-- DRW where its n bytes lie in memory (R205, as the parallel update of R206): each cell the sprite's set bits fall on,
wrapped, is flipped and no other; VF is 1 exactly when a set cell met a set bit, else 0; nothing else but PC. n = 0 draws
nothing (D17, log 25). -/
def Obligations.DrwFlipsSpriteCells : Prop :=
  ∀ (x y : Reg) (n : BitVec 4) (s : State), n = 0 ∨ s.base + n.toNat ≤ 4096 →
    ∃ t, exec (.drw x y n) s = .next t ∧
      (∀ dx dy, pixel t.fb dx dy = true ↔
        (pixel s.fb dx dy = true ↔
          ¬ SpriteSets s.mem s.base n.toNat (s.reg x).toNat (s.reg y).toNat dx dy)) ∧
      ((∃ dx dy, pixel s.fb dx dy = true ∧
          SpriteSets s.mem s.base n.toNat (s.reg x).toNat (s.reg y).toNat dx dy) → t.reg 15 = 1) ∧
      ((¬ ∃ dx dy, pixel s.fb dx dy = true ∧
          SpriteSets s.mem s.base n.toNat (s.reg x).toNat (s.reg y).toNat dx dy) → t.reg 15 = 0) ∧
      t.pc = s.pc + 2 ∧ t.samples = s.samples ∧ OnlyRegsAndPc [15] s { t with fb := s.fb }

/-- Drawing the same rows twice at the same place restores the framebuffer (R206 (c)), for every sprite of up to 15 rows. -/
def Obligations.DrawingTwiceRestores : Prop :=
  ∀ (x0 y0 : Nat) (rows : List Byte) (fb : Screen), rows.length ≤ 15 →
    (drawSprite x0 y0 rows (drawSprite x0 y0 rows fb).1).1 = fb

/-- `pixel_read(x, y)` (R208, 60_exceptions.md R245): the cell inside the bounds, OutOfRange returned outside, for any integers. -/
def Obligations.PixelReadChecksBounds : Prop :=
  ∀ (s : State) (x y : Int),
    (∀ (dx : Fin 64) (dy : Fin 32), x = dx.val → y = dy.val → pixelRead s x y = .ok (pixel s.fb dx dy)) ∧
    (x < 0 ∨ 63 < x ∨ y < 0 ∨ 31 < y → pixelRead s x y = .error .outOfRange)

/-! ### Keypad and timers -/

/-- SKP and SKNP (44_keypad_and_timers.md R220 to R222): the key of the whole byte V[x] in the sample taken, whatever it
is (free value Config.keyDown, log 2); a code above 15 is never pressed (D10, log 12); nothing but PC and the count of
samples. -/
def Obligations.KeySkips : Prop :=
  ∀ (x : Reg) (s : State),
    (∃ t, exec (.skp x) s = .next t ∧
      t.pc = (if (s.reg x).toNat ≤ 15 ∧ (Config.keyDown s.samples).getLsbD (s.reg x).toNat = true
        then s.pc + 4 else s.pc + 2) ∧ t.samples = s.samples + 1 ∧ OnlyRegsAndPc [] s t) ∧
    (∃ t, exec (.sknp x) s = .next t ∧
      t.pc = (if (s.reg x).toNat ≤ 15 ∧ (Config.keyDown s.samples).getLsbD (s.reg x).toNat = true
        then s.pc + 2 else s.pc + 4) ∧ t.samples = s.samples + 1 ∧ OnlyRegsAndPc [] s t)

/-- LDKP (R223): the wait with x pending; PC, every register and everything else unchanged (D11, log 13). -/
def Obligations.LdkpWaits : Prop :=
  ∀ (x : Reg) (s : State), ∃ t, exec (.ldkp x) s = .next t ∧ t.run = .waitingForKey x ∧ t.pc = s.pc ∧
    t.samples = s.samples ∧ OnlyRegsAndPc [] s { t with run := s.run }

/-- key_event(K) (R224): in a wait the pending register gets K, PC goes 2 on and the machine runs, nothing else; outside a
wait the event is dropped (D11, log 13). -/
def Obligations.KeyEventEndsWait : Prop :=
  ∀ (s : State) (k : BitVec 4) (rest : List Event), s.events = .keyEvent k :: rest →
    (∀ d, s.run = .waitingForKey d → ∃ t, step s = .next t ∧ (t.reg d).toNat = k.toNat ∧ t.pc = s.pc + 2 ∧
      t.run = .running ∧ t.events = rest ∧ t.samples = s.samples ∧
      OnlyRegsAndPc [d] s { t with run := s.run, events := s.events }) ∧
    ((∀ d, s.run ≠ .waitingForKey d) → step s = .next { s with events := rest })

/-- LDDT, LDDTR, LDST (R225 to R227): V[x] = DT, DT = V[x], ST = V[x], nothing else but PC. -/
def Obligations.TimerInstructions : Prop :=
  ∀ (x : Reg) (s : State),
    (∃ t, exec (.lddt x) s = .next t ∧ t.reg x = s.dt ∧ t.pc = s.pc + 2 ∧ t.samples = s.samples ∧
      OnlyRegsAndPc [x] s t) ∧
    (∃ t, exec (.lddtr x) s = .next t ∧ t.dt = s.reg x ∧ t.pc = s.pc + 2 ∧ t.samples = s.samples ∧
      OnlyRegsAndPc [] s { t with dt := s.dt }) ∧
    (∃ t, exec (.ldst x) s = .next t ∧ t.st = s.reg x ∧ t.pc = s.pc + 2 ∧ t.samples = s.samples ∧
      OnlyRegsAndPc [] s { t with st := s.st })

/-- tick (R231): each timer one lower unless it is 0, in Running and in WaitingForKey (D12), nothing in Halted (D9; log
14); nothing but the timers. -/
def Obligations.TickCountsDown : Prop :=
  ∀ (s : State) (rest : List Event), s.events = .tick :: rest →
    ((∀ r, s.run ≠ .halted r) → ∃ t, step s = .next t ∧
      t.dt.toNat = s.dt.toNat - 1 ∧ t.st.toNat = s.st.toNat - 1 ∧ t = { s with events := rest, dt := t.dt, st := t.st }) ∧
    (∀ r, s.run = .halted r → step s = .next { s with events := rest })

/-- host_write (10_state.md R41, 70_reset_and_hazards.md R290, 60_exceptions.md R245, D20): before the first cycle an
address in range gets v mod 256, no other byte changes and nothing is refused; an address out of range changes nothing,
halts nothing, and OutOfRange is returned to the host (an output, log 24); after the first cycle the machine has no move (U12, log
18). The event is taken from the environment's choices (log 1). -/
def Obligations.HostWriteBeforeStart : Prop :=
  ∀ (s : State) (a v : Int) (rest : List Event), s.events = .hostWrite a v :: rest →
    (s.started = false → 0 ≤ a → a ≤ 4095 → stepRefusal s = none ∧ ∃ t b, step s = .next t ∧
      memRead t.mem a.toNat = .ok b ∧ (b.toNat : Int) = v % 256 ∧ MemoryKeptOutside a.toNat 1 s t ∧
      t = { s with events := rest, mem := t.mem }) ∧
    (s.started = false → a < 0 ∨ 4095 < a →
      stepRefusal s = some .outOfRange ∧ step s = .next { s with events := rest }) ∧
    (s.started = true → step s = .fault .hostWriteAfterStart)
end

