-- ==== Sys2Proof/Laws/Encoding.lean ====
section
/-! SUPPORT. The fields of a word written in each format (30_encoding.md R91, R92), the bytes of a word, and the rows of
the opcode table. -/

namespace Sys2Proof

section FNNN
variable (op : BitVec 4) (nnn : Addr)

@[simp] theorem opField_wordFNNN : opField (wordFNNN op nnn) = op := by
  apply BitVec.eq_of_getLsbD_eq
  intro j hj
  interval_cases j <;> simp [opField, wordFNNN]

@[simp] theorem nnnField_wordFNNN : nnnField (wordFNNN op nnn) = nnn := by
  apply BitVec.eq_of_getLsbD_eq
  intro j hj
  interval_cases j <;> simp [nnnField, wordFNNN]

end FNNN

section FXKK
variable (op : BitVec 4) (x : Reg) (kk : Byte)

@[simp] theorem opField_wordFXKK : opField (wordFXKK op x kk) = op := by
  apply BitVec.eq_of_getLsbD_eq
  intro j hj
  interval_cases j <;> simp [opField, wordFXKK]

@[simp] theorem xField_wordFXKK : xField (wordFXKK op x kk) = x := by
  apply BitVec.eq_of_getLsbD_eq
  intro j hj
  interval_cases j <;> simp [xField, wordFXKK]

@[simp] theorem kkField_wordFXKK : kkField (wordFXKK op x kk) = kk := by
  apply BitVec.eq_of_getLsbD_eq
  intro j hj
  interval_cases j <;> simp [kkField, wordFXKK]

end FXKK

section FXYN
variable (op : BitVec 4) (x y : Reg) (n : BitVec 4)

@[simp] theorem opField_wordFXYN : opField (wordFXYN op x y n) = op := by
  apply BitVec.eq_of_getLsbD_eq
  intro j hj
  interval_cases j <;> simp [opField, wordFXYN]

@[simp] theorem xField_wordFXYN : xField (wordFXYN op x y n) = x := by
  apply BitVec.eq_of_getLsbD_eq
  intro j hj
  interval_cases j <;> simp [xField, wordFXYN]

@[simp] theorem yField_wordFXYN : yField (wordFXYN op x y n) = y := by
  apply BitVec.eq_of_getLsbD_eq
  intro j hj
  interval_cases j <;> simp [yField, wordFXYN]

@[simp] theorem nField_wordFXYN : nField (wordFXYN op x y n) = n := by
  apply BitVec.eq_of_getLsbD_eq
  intro j hj
  interval_cases j <;> simp [nField, wordFXYN]

end FXYN

/-! ### A word is its fields put together, in each format -/

theorem wordFXYN_fields (w : Word) : wordFXYN (opField w) (xField w) (yField w) (nField w) = w := by
  apply BitVec.eq_of_getLsbD_eq
  intro j hj
  interval_cases j <;> simp [wordFXYN, opField, xField, yField, nField]

theorem wordFXKK_fields (w : Word) : wordFXKK (opField w) (xField w) (kkField w) = w := by
  apply BitVec.eq_of_getLsbD_eq
  intro j hj
  interval_cases j <;> simp [wordFXKK, opField, xField, kkField]

theorem wordFNNN_fields (w : Word) : wordFNNN (opField w) (nnnField w) = w := by
  apply BitVec.eq_of_getLsbD_eq
  intro j hj
  interval_cases j <;> simp [wordFNNN, opField, nnnField]

/-- Clearing the field y of a word (30_encoding.md R104: SHR and SHL are written with y = 0). -/
theorem clear_y_wordFXYN (op : BitVec 4) (x y : Reg) (n : BitVec 4) :
    wordFXYN op x y n &&& 0xFF0F = wordFXYN op x 0 n := by
  apply BitVec.eq_of_getLsbD_eq
  intro j hj
  interval_cases j <;> simp [wordFXYN]

/-! ### What the masks of the opcode table keep of a word -/

theorem mask_op_wordFNNN (op : BitVec 4) (nnn : Addr) : wordFNNN op nnn &&& 0xF000 = op.setWidth 16 <<< 12 := by
  apply BitVec.eq_of_getLsbD_eq
  intro j hj
  interval_cases j <;> simp [wordFNNN]

theorem mask_op_wordFXKK (op : BitVec 4) (x : Reg) (kk : Byte) :
    wordFXKK op x kk &&& 0xF000 = op.setWidth 16 <<< 12 := by
  apply BitVec.eq_of_getLsbD_eq
  intro j hj
  interval_cases j <;> simp [wordFXKK]

theorem mask_selector_wordFXKK (op : BitVec 4) (x : Reg) (kk : Byte) :
    wordFXKK op x kk &&& 0xF0FF = op.setWidth 16 <<< 12 ||| kk.setWidth 16 := by
  apply BitVec.eq_of_getLsbD_eq
  intro j hj
  interval_cases j <;> simp [wordFXKK]

theorem mask_op_wordFXYN (op : BitVec 4) (x y : Reg) (n : BitVec 4) :
    wordFXYN op x y n &&& 0xF000 = op.setWidth 16 <<< 12 := by
  apply BitVec.eq_of_getLsbD_eq
  intro j hj
  interval_cases j <;> simp [wordFXYN]

theorem mask_selector_wordFXYN (op : BitVec 4) (x y : Reg) (n : BitVec 4) :
    wordFXYN op x y n &&& 0xF00F = op.setWidth 16 <<< 12 ||| n.setWidth 16 := by
  apply BitVec.eq_of_getLsbD_eq
  intro j hj
  interval_cases j <;> simp [wordFXYN]

/-- A word is put together from its two bytes (20_memory.md R63, R64). -/
@[simp] theorem wordOfBytes_split (w : Word) : wordOfBytes (highByte w) (lowByte w) = w := by
  apply BitVec.eq_of_getLsbD_eq
  intro j hj
  interval_cases j <;> simp [wordOfBytes, highByte, lowByte]

/-- The high byte of two bytes. -/
@[simp] theorem highByte_wordOfBytes (hi lo : Byte) : highByte (wordOfBytes hi lo) = hi := by
  apply BitVec.eq_of_getLsbD_eq
  intro j hj
  interval_cases j <;> simp [wordOfBytes, highByte]

/-- The low byte of two bytes. -/
@[simp] theorem lowByte_wordOfBytes (hi lo : Byte) : lowByte (wordOfBytes hi lo) = lo := by
  apply BitVec.eq_of_getLsbD_eq
  intro j hj
  interval_cases j <;> simp [wordOfBytes, lowByte]

/-- The decoder reads a table word as it reads the same word at fetch. -/
theorem decodeTableWord_eq (nbits w : Nat) : decodeTableWord nbits w = decode (tableWord nbits w) := by
  simp only [decodeTableWord, decodeBytes, wordOfBytes_split]
  cases decode (tableWord nbits w) <;> rfl

/-- A whole word as a table word. -/
@[simp] theorem tableWord_toNat (w : Word) : tableWord 16 w.toNat = w := by
  simp [tableWord, Nat.mod_eq_of_lt w.isLt]

end Sys2Proof
end

