-- ==== Sys2Proof/Laws/Memory.lean ====
section
/-! SUPPORT. The laws of memory: a read after a write, the canonical form, and what the three kinds of transfer do. -/

namespace Sys2Proof.Machine

/-! ### One byte -/

theorem peek_insertCell (m : List Host.Cell) (a : Nat) (b : Byte) (k : Nat) :
    peek (insertCell a b m) k = if k = a then b else peek m k := by
  induction m with
  | nil => simp only [insertCell, peek]; split <;> split <;> first | rfl | omega
  | cons c rest ih =>
    obtain ⟨j, c⟩ := c
    simp only [insertCell]
    split
    · simp only [peek]; repeat' split
      all_goals first | rfl | omega
    · split
      · simp only [peek]; repeat' split
        all_goals first | rfl | omega
      · simp only [peek, ih]; repeat' split
        all_goals first | rfl | omega

theorem peek_filter_ne (m : List Host.Cell) (a k : Nat) :
    peek (m.filter (fun c => c.1 ≠ a)) k = if k = a then 0 else peek m k := by
  induction m with
  | nil => simp [peek]
  | cons c rest ih =>
    obtain ⟨j, c⟩ := c
    by_cases hj : j = a
    · subst hj
      simp only [ne_eq, not_true_eq_false, decide_false, Bool.false_eq_true, not_false_eq_true,
        List.filter_cons_of_neg, peek]
      rw [ih]; repeat' split
      all_goals first | rfl | omega
    · have : List.filter (fun c => decide (c.1 ≠ a)) ((j, c) :: rest) =
          (j, c) :: List.filter (fun c => decide (c.1 ≠ a)) rest := by simp [hj]
      rw [this]; simp only [peek]; rw [ih]; repeat' split
      all_goals first | rfl | omega

/-- A byte read after a byte write (20_memory.md R65, R72), in every memory. -/
theorem peek_poke (m : List Host.Cell) (a : Nat) (b : Byte) (k : Nat) :
    peek (poke m a b) k = if k = a then b else peek m k := by
  unfold poke
  split
  · next h => rw [peek_filter_ne, h]
  · exact peek_insertCell m a b k

@[simp] theorem peek_poke_same (m : List Host.Cell) (a : Nat) (b : Byte) : peek (poke m a b) a = b := by
  simp [peek_poke]

theorem peek_poke_ne (m : List Host.Cell) {a k : Nat} (b : Byte) (h : k ≠ a) :
    peek (poke m a b) k = peek m k := by
  simp [peek_poke, h]

theorem memRead_valid (m : List Host.Cell) {a : Nat} (h : a < 4096) : memRead m a = .ok (peek m a) := by
  simp [memRead, validAddr, h]

theorem memRead_invalid (m : List Host.Cell) {a : Nat} (h : ¬ a < 4096) : memRead m a = .error a := by
  simp [memRead, validAddr, h]

/-- Two memories that read alike. -/
theorem memRead_congr {m m' : List Host.Cell} {a : Nat} (h : peek m' a = peek m a) : memRead m' a = memRead m a := by
  simp [memRead, h]

/-! ### The canonical form -/

theorem wf_cons_iff (a : Nat) (b : Byte) (rest : List Host.Cell) :
    Memory.wf ((a, b) :: rest) = true ↔
      a < 4096 ∧ b ≠ 0 ∧ (∀ c ∈ rest, a < c.1) ∧ Memory.wf rest = true := by
  simp [Memory.wf, validAddr, and_assoc]

theorem wf_filter (m : List Host.Cell) (p : Host.Cell → Bool) (h : Memory.wf m = true) :
    Memory.wf (m.filter p) = true := by
  induction m with
  | nil => rfl
  | cons c rest ih =>
    obtain ⟨a, b⟩ := c
    rw [wf_cons_iff] at h
    by_cases hp : p (a, b)
    · rw [List.filter_cons_of_pos hp, wf_cons_iff]
      exact ⟨h.1, h.2.1, fun c hc => h.2.2.1 c (List.mem_filter.1 hc).1, ih h.2.2.2⟩
    · rw [List.filter_cons_of_neg hp]; exact ih h.2.2.2

theorem mem_insertCell {m : List Host.Cell} {a : Nat} {b : Byte} {c : Host.Cell}
    (h : c ∈ insertCell a b m) : c = (a, b) ∨ c ∈ m := by
  induction m with
  | nil => simpa [insertCell] using h
  | cons d rest ih =>
    obtain ⟨k, d⟩ := d
    simp only [insertCell] at h
    split at h
    · simpa using h
    · split at h
      · rcases List.mem_cons.1 h with h | h
        · exact .inl h
        · exact .inr (List.mem_cons_of_mem _ h)
      · rcases List.mem_cons.1 h with h | h
        · exact .inr (h ▸ List.mem_cons_self)
        · exact (ih h).imp id (List.mem_cons_of_mem _)

theorem wf_insertCell (m : List Host.Cell) {a : Nat} {b : Byte} (ha : a < 4096) (hb : b ≠ 0)
    (h : Memory.wf m = true) : Memory.wf (insertCell a b m) = true := by
  induction m with
  | nil => exact (wf_cons_iff a b []).2 ⟨ha, hb, by simp, rfl⟩
  | cons c rest ih =>
    obtain ⟨k, c⟩ := c
    have h' := (wf_cons_iff k c rest).1 h
    simp only [insertCell]
    split
    · next hk =>
      rw [wf_cons_iff]
      refine ⟨ha, hb, fun d hd => ?_, h⟩
      rcases List.mem_cons.1 hd with rfl | hd
      · exact hk
      · exact lt_trans hk (h'.2.2.1 d hd)
    · split
      · next hk =>
        subst hk
        exact (wf_cons_iff _ _ _).2 ⟨ha, hb, h'.2.2.1, h'.2.2.2⟩
      · next h1 h2 =>
        rw [wf_cons_iff]
        refine ⟨h'.1, h'.2.1, fun d hd => ?_, ih h'.2.2.2⟩
        rcases mem_insertCell hd with rfl | hd
        · show k < a
          omega
        · exact h'.2.2.1 d hd

/-- A byte write at a valid address keeps the canonical form. -/
theorem wf_poke (m : List Host.Cell) {a : Nat} (b : Byte) (ha : a < 4096) (h : Memory.wf m = true) :
    Memory.wf (poke m a b) = true := by
  unfold poke
  split
  · exact wf_filter m _ h
  · next hb => exact wf_insertCell m ha hb h

/-- `MemWrite(addr, 1, v)` keeps the canonical form. -/
theorem wf_memWrite {m m' : List Host.Cell} {a : Nat} {b : Byte} (h : Memory.wf m = true)
    (hw : memWrite m a b = .ok m') : Memory.wf m' = true := by
  unfold memWrite at hw
  split at hw
  · next ha =>
    cases hw
    exact wf_poke m b (by simpa [validAddr] using ha) h
  · cases hw

/-- `MemWrite(addr, 2, v)` keeps the canonical form. -/
theorem wf_memWriteWord {m m' : List Host.Cell} {a : Nat} {w : Word} (h : Memory.wf m = true)
    (hw : memWriteWord m a w = .ok m') : Memory.wf m' = true := by
  unfold memWriteWord at hw
  split at hw
  · next ha =>
    split at hw
    · next hb =>
      cases hw
      exact wf_poke _ _ (by simpa [validAddr] using hb) (wf_poke _ _ (by simpa [validAddr] using ha) h)
    · cases hw
  · cases hw

/-- A run of byte writes keeps the canonical form, also when it fails part-way. -/
theorem wf_storeBytes (bs : List Byte) (m : List Host.Cell) (a : Nat) (h : Memory.wf m = true) :
    Memory.wf (storeBytes m a bs).1 = true := by
  induction bs generalizing m a with
  | nil => exact h
  | cons b bs ih =>
    simp only [storeBytes]
    split
    · next m' hw => exact ih m' (a + 1) (wf_memWrite h hw)
    · exact h

/-! ### Transfers -/

/-- What a run of byte writes leaves at an address: the byte written there, where the write was in range. -/
theorem peek_storeBytes (bs : List Byte) (m : List Host.Cell) (a k : Nat) :
    peek (storeBytes m a bs).1 k =
      if h : a ≤ k ∧ k < a + bs.length ∧ k < 4096 then bs[k - a]'(by omega) else peek m k := by
  induction bs generalizing m a with
  | nil => rw [dif_neg (by simp only [List.length_nil]; omega)]; rfl
  | cons b bs ih =>
    by_cases ha : a < 4096
    · simp only [storeBytes, memWrite, validAddr, ha, decide_true, if_true]
      rw [ih, peek_poke]
      by_cases hk : k = a
      · subst hk
        rw [dif_neg (by omega), if_pos rfl, dif_pos ⟨le_refl _, by simp, ha⟩]
        simp
      · by_cases h : a + 1 ≤ k ∧ k < a + 1 + bs.length ∧ k < 4096
        · rw [dif_pos h, dif_pos ⟨by omega, by simp only [List.length_cons]; omega, h.2.2⟩]
          have : k - a = (k - (a + 1)) + 1 := by omega
          simp [this]
        · rw [dif_neg h, if_neg hk, dif_neg (by simp only [List.length_cons]; omega)]
    · simp only [storeBytes, memWrite, validAddr, ha, decide_false, Bool.false_eq_true, if_false]
      rw [dif_neg (by omega)]

/-- Where a run of byte writes fails: nowhere when the last byte is in range, else at the first address that is not. -/
theorem failed_storeBytes (bs : List Byte) (m : List Host.Cell) (a : Nat) :
    (storeBytes m a bs).2 =
      if bs.length = 0 ∨ a + bs.length ≤ 4096 then none else some (max a 4096) := by
  induction bs generalizing m a with
  | nil => simp [storeBytes]
  | cons b bs ih =>
    by_cases ha : a < 4096
    · simp only [storeBytes, memWrite, validAddr, ha, decide_true, if_true]
      rw [ih]
      simp only [List.length_cons]
      split <;> split <;> first | rfl | omega | (congr 1; omega)
    · simp only [storeBytes, memWrite, validAddr, ha, decide_false, Bool.false_eq_true, if_false, List.length_cons]
      rw [if_neg (by omega), max_eq_left (by omega)]

/-- A run of byte reads that stays in range gives all its bytes. -/
theorem readBytes_ok (m : List Host.Cell) (n a : Nat) (h : n = 0 ∨ a + n ≤ 4096) :
    readBytes m a n = .ok ((List.range n).map (fun k => peek m (a + k))) := by
  induction n generalizing a with
  | zero => rfl
  | succ n ih =>
    have : List.range (n + 1) = 0 :: (List.range n).map Nat.succ := List.range_succ_eq_map
    simp only [readBytes, memRead_valid m (show a < 4096 by omega), ih (a + 1) (by omega), this]
    simp [Function.comp_def, Nat.add_assoc, Nat.add_comm 1]

/-- A run of byte reads that leaves memory gives the first address out of range. -/
theorem readBytes_error (m : List Host.Cell) (n a : Nat) (hn : n ≠ 0) (h : 4096 < a + n) :
    readBytes m a n = .error (max a 4096) := by
  induction n generalizing a with
  | zero => exact absurd rfl hn
  | succ n ih =>
    by_cases ha : a < 4096
    · simp only [readBytes, memRead_valid m ha, ih (a + 1) (by omega) (by omega)]
      congr 1; omega
    · simp only [readBytes, memRead_invalid m ha]
      congr 1; omega

/-- What a run of register loads leaves in register j. -/
theorem getElem_loadRegs (n : Nat) (m : List Host.Cell) (a k : Nat) (v : Vector Byte 16) (j : Nat) (hj : j < 16) :
    (loadRegs m a k n v).1[j] =
      if k ≤ j ∧ j < k + n ∧ a + (j - k) < 4096 then peek m (a + (j - k)) else v[j] := by
  induction n generalizing a k v with
  | zero => rw [if_neg (by omega)]; rfl
  | succ n ih =>
    by_cases ha : a < 4096
    · simp only [loadRegs, memRead_valid m ha]
      rw [ih]
      by_cases hk : k = j
      · subst hk
        rw [if_neg (by omega), if_pos ⟨le_refl _, by omega, by omega⟩]
        simp
      · rw [Vector.getElem_setIfInBounds_ne hj hk]
        by_cases h : k + 1 ≤ j ∧ j < k + 1 + n ∧ a + 1 + (j - (k + 1)) < 4096
        · have e : a + 1 + (j - (k + 1)) = a + (j - k) := by omega
          rw [if_pos h, if_pos ⟨by omega, by omega, by omega⟩, e]
        · rw [if_neg h, if_neg (by omega)]
    · simp only [loadRegs, memRead_invalid m ha]
      rw [if_neg (by omega)]

/-- Where a run of register loads fails. -/
theorem failed_loadRegs (n : Nat) (m : List Host.Cell) (a k : Nat) (v : Vector Byte 16) :
    (loadRegs m a k n v).2 = if n = 0 ∨ a + n ≤ 4096 then none else some (max a 4096) := by
  induction n generalizing a k v with
  | zero => simp [loadRegs]
  | succ n ih =>
    by_cases ha : a < 4096
    · simp only [loadRegs, memRead_valid m ha]
      rw [ih]
      split <;> split <;> first | rfl | omega | (congr 1; omega)
    · simp only [loadRegs, memRead_invalid m ha]
      rw [if_neg (by omega), max_eq_left (by omega)]

/-- Memory right after `power_on` is in canonical form. -/
theorem wf_reset : Memory.wf State.reset.mem = true := rfl

end Sys2Proof.Machine
end

