-- ==== Sys2Proof/Laws/State.lean ====
section
/-! SUPPORT. One lemma per field per update of State, so that no proof unfolds a record update; then what a register
reads after a write. -/

namespace Sys2Proof.Machine

@[simp] theorem State.setReg_v (s : State) (x : Reg) (b : Byte) : (s.setReg x b).v = s.v.set x.toNat b := rfl
@[simp] theorem State.setReg_pc (s : State) (x : Reg) (b : Byte) : (s.setReg x b).pc = s.pc := rfl
@[simp] theorem State.setReg_i (s : State) (x : Reg) (b : Byte) : (s.setReg x b).i = s.i := rfl
@[simp] theorem State.setReg_sp (s : State) (x : Reg) (b : Byte) : (s.setReg x b).sp = s.sp := rfl
@[simp] theorem State.setReg_stack (s : State) (x : Reg) (b : Byte) : (s.setReg x b).stack = s.stack := rfl
@[simp] theorem State.setReg_dt (s : State) (x : Reg) (b : Byte) : (s.setReg x b).dt = s.dt := rfl
@[simp] theorem State.setReg_st (s : State) (x : Reg) (b : Byte) : (s.setReg x b).st = s.st := rfl
@[simp] theorem State.setReg_run (s : State) (x : Reg) (b : Byte) : (s.setReg x b).run = s.run := rfl
@[simp] theorem State.setReg_mem (s : State) (x : Reg) (b : Byte) : (s.setReg x b).mem = s.mem := rfl
@[simp] theorem State.setReg_fb (s : State) (x : Reg) (b : Byte) : (s.setReg x b).fb = s.fb := rfl
@[simp] theorem State.setReg_events (s : State) (x : Reg) (b : Byte) : (s.setReg x b).events = s.events := rfl
@[simp] theorem State.setReg_samples (s : State) (x : Reg) (b : Byte) : (s.setReg x b).samples = s.samples := rfl
@[simp] theorem State.setReg_started (s : State) (x : Reg) (b : Byte) : (s.setReg x b).started = s.started := rfl

@[simp] theorem State.advance_v (s : State) : (s.advance).v = s.v := rfl
@[simp] theorem State.advance_pc (s : State) : (s.advance).pc = s.pc + 2 := rfl
@[simp] theorem State.advance_i (s : State) : (s.advance).i = s.i := rfl
@[simp] theorem State.advance_sp (s : State) : (s.advance).sp = s.sp := rfl
@[simp] theorem State.advance_stack (s : State) : (s.advance).stack = s.stack := rfl
@[simp] theorem State.advance_dt (s : State) : (s.advance).dt = s.dt := rfl
@[simp] theorem State.advance_st (s : State) : (s.advance).st = s.st := rfl
@[simp] theorem State.advance_run (s : State) : (s.advance).run = s.run := rfl
@[simp] theorem State.advance_mem (s : State) : (s.advance).mem = s.mem := rfl
@[simp] theorem State.advance_fb (s : State) : (s.advance).fb = s.fb := rfl
@[simp] theorem State.advance_events (s : State) : (s.advance).events = s.events := rfl
@[simp] theorem State.advance_samples (s : State) : (s.advance).samples = s.samples := rfl
@[simp] theorem State.advance_started (s : State) : (s.advance).started = s.started := rfl

@[simp] theorem State.jump_v (s : State) (w : Word) : (s.jump w).v = s.v := rfl
@[simp] theorem State.jump_pc (s : State) (w : Word) : (s.jump w).pc = w := rfl
@[simp] theorem State.jump_i (s : State) (w : Word) : (s.jump w).i = s.i := rfl
@[simp] theorem State.jump_sp (s : State) (w : Word) : (s.jump w).sp = s.sp := rfl
@[simp] theorem State.jump_stack (s : State) (w : Word) : (s.jump w).stack = s.stack := rfl
@[simp] theorem State.jump_dt (s : State) (w : Word) : (s.jump w).dt = s.dt := rfl
@[simp] theorem State.jump_st (s : State) (w : Word) : (s.jump w).st = s.st := rfl
@[simp] theorem State.jump_run (s : State) (w : Word) : (s.jump w).run = s.run := rfl
@[simp] theorem State.jump_mem (s : State) (w : Word) : (s.jump w).mem = s.mem := rfl
@[simp] theorem State.jump_fb (s : State) (w : Word) : (s.jump w).fb = s.fb := rfl
@[simp] theorem State.jump_events (s : State) (w : Word) : (s.jump w).events = s.events := rfl
@[simp] theorem State.jump_samples (s : State) (w : Word) : (s.jump w).samples = s.samples := rfl
@[simp] theorem State.jump_started (s : State) (w : Word) : (s.jump w).started = s.started := rfl

@[simp] theorem State.skipIf_v (s : State) (c : Bool) : (s.skipIf c).v = s.v := rfl
@[simp] theorem State.skipIf_pc (s : State) (c : Bool) : (s.skipIf c).pc = if c then s.pc + 4 else s.pc + 2 := rfl
@[simp] theorem State.skipIf_i (s : State) (c : Bool) : (s.skipIf c).i = s.i := rfl
@[simp] theorem State.skipIf_sp (s : State) (c : Bool) : (s.skipIf c).sp = s.sp := rfl
@[simp] theorem State.skipIf_stack (s : State) (c : Bool) : (s.skipIf c).stack = s.stack := rfl
@[simp] theorem State.skipIf_dt (s : State) (c : Bool) : (s.skipIf c).dt = s.dt := rfl
@[simp] theorem State.skipIf_st (s : State) (c : Bool) : (s.skipIf c).st = s.st := rfl
@[simp] theorem State.skipIf_run (s : State) (c : Bool) : (s.skipIf c).run = s.run := rfl
@[simp] theorem State.skipIf_mem (s : State) (c : Bool) : (s.skipIf c).mem = s.mem := rfl
@[simp] theorem State.skipIf_fb (s : State) (c : Bool) : (s.skipIf c).fb = s.fb := rfl
@[simp] theorem State.skipIf_events (s : State) (c : Bool) : (s.skipIf c).events = s.events := rfl
@[simp] theorem State.skipIf_samples (s : State) (c : Bool) : (s.skipIf c).samples = s.samples := rfl
@[simp] theorem State.skipIf_started (s : State) (c : Bool) : (s.skipIf c).started = s.started := rfl

@[simp] theorem State.halt_v (s : State) (r : HaltReason) (o : Option Word) (a : Option Nat) : (s.halt r o a).v = s.v := rfl
@[simp] theorem State.halt_pc (s : State) (r : HaltReason) (o : Option Word) (a : Option Nat) : (s.halt r o a).pc = s.pc := rfl
@[simp] theorem State.halt_i (s : State) (r : HaltReason) (o : Option Word) (a : Option Nat) : (s.halt r o a).i = s.i := rfl
@[simp] theorem State.halt_sp (s : State) (r : HaltReason) (o : Option Word) (a : Option Nat) : (s.halt r o a).sp = s.sp := rfl
@[simp] theorem State.halt_stack (s : State) (r : HaltReason) (o : Option Word) (a : Option Nat) : (s.halt r o a).stack = s.stack := rfl
@[simp] theorem State.halt_dt (s : State) (r : HaltReason) (o : Option Word) (a : Option Nat) : (s.halt r o a).dt = s.dt := rfl
@[simp] theorem State.halt_st (s : State) (r : HaltReason) (o : Option Word) (a : Option Nat) : (s.halt r o a).st = s.st := rfl
@[simp] theorem State.halt_run (s : State) (r : HaltReason) (o : Option Word) (a : Option Nat) : (s.halt r o a).run = .halted ⟨r, s.pc, o, a⟩ := rfl
@[simp] theorem State.halt_mem (s : State) (r : HaltReason) (o : Option Word) (a : Option Nat) : (s.halt r o a).mem = s.mem := rfl
@[simp] theorem State.halt_fb (s : State) (r : HaltReason) (o : Option Word) (a : Option Nat) : (s.halt r o a).fb = s.fb := rfl
@[simp] theorem State.halt_events (s : State) (r : HaltReason) (o : Option Word) (a : Option Nat) : (s.halt r o a).events = s.events := rfl
@[simp] theorem State.halt_samples (s : State) (r : HaltReason) (o : Option Word) (a : Option Nat) : (s.halt r o a).samples = s.samples := rfl
@[simp] theorem State.halt_started (s : State) (r : HaltReason) (o : Option Word) (a : Option Nat) : (s.halt r o a).started = s.started := rfl

@[simp] theorem State.sampled_v (s : State) : (s.sampled).v = s.v := rfl
@[simp] theorem State.sampled_pc (s : State) : (s.sampled).pc = s.pc := rfl
@[simp] theorem State.sampled_i (s : State) : (s.sampled).i = s.i := rfl
@[simp] theorem State.sampled_sp (s : State) : (s.sampled).sp = s.sp := rfl
@[simp] theorem State.sampled_stack (s : State) : (s.sampled).stack = s.stack := rfl
@[simp] theorem State.sampled_dt (s : State) : (s.sampled).dt = s.dt := rfl
@[simp] theorem State.sampled_st (s : State) : (s.sampled).st = s.st := rfl
@[simp] theorem State.sampled_run (s : State) : (s.sampled).run = s.run := rfl
@[simp] theorem State.sampled_mem (s : State) : (s.sampled).mem = s.mem := rfl
@[simp] theorem State.sampled_fb (s : State) : (s.sampled).fb = s.fb := rfl
@[simp] theorem State.sampled_events (s : State) : (s.sampled).events = s.events := rfl
@[simp] theorem State.sampled_samples (s : State) : (s.sampled).samples = s.samples + 1 := rfl
@[simp] theorem State.sampled_started (s : State) : (s.sampled).started = s.started := rfl

@[simp] theorem State.start_v (s : State) : (s.start).v = s.v := rfl
@[simp] theorem State.start_pc (s : State) : (s.start).pc = s.pc := rfl
@[simp] theorem State.start_i (s : State) : (s.start).i = s.i := rfl
@[simp] theorem State.start_sp (s : State) : (s.start).sp = s.sp := rfl
@[simp] theorem State.start_stack (s : State) : (s.start).stack = s.stack := rfl
@[simp] theorem State.start_dt (s : State) : (s.start).dt = s.dt := rfl
@[simp] theorem State.start_st (s : State) : (s.start).st = s.st := rfl
@[simp] theorem State.start_run (s : State) : (s.start).run = s.run := rfl
@[simp] theorem State.start_mem (s : State) : (s.start).mem = s.mem := rfl
@[simp] theorem State.start_fb (s : State) : (s.start).fb = s.fb := rfl
@[simp] theorem State.start_events (s : State) : (s.start).events = s.events := rfl
@[simp] theorem State.start_samples (s : State) : (s.start).samples = s.samples := rfl
@[simp] theorem State.start_started (s : State) : (s.start).started = true := rfl

@[simp] theorem State.resetEvent_v (s : State) : (s.resetEvent).v = Vector.replicate 16 0 := rfl
@[simp] theorem State.resetEvent_pc (s : State) : (s.resetEvent).pc = 0x200 := rfl
@[simp] theorem State.resetEvent_i (s : State) : (s.resetEvent).i = 0 := rfl
@[simp] theorem State.resetEvent_sp (s : State) : (s.resetEvent).sp = 0 := rfl
@[simp] theorem State.resetEvent_stack (s : State) : (s.resetEvent).stack = s.stack := rfl
@[simp] theorem State.resetEvent_dt (s : State) : (s.resetEvent).dt = 0 := rfl
@[simp] theorem State.resetEvent_st (s : State) : (s.resetEvent).st = 0 := rfl
@[simp] theorem State.resetEvent_run (s : State) : (s.resetEvent).run = .running := rfl
@[simp] theorem State.resetEvent_mem (s : State) : (s.resetEvent).mem = s.mem := rfl
@[simp] theorem State.resetEvent_fb (s : State) : (s.resetEvent).fb = clearScreen := rfl
@[simp] theorem State.resetEvent_events (s : State) : (s.resetEvent).events = s.events := rfl
@[simp] theorem State.resetEvent_samples (s : State) : (s.resetEvent).samples = s.samples := rfl
@[simp] theorem State.resetEvent_started (s : State) : (s.resetEvent).started = false := rfl

@[simp] theorem State.powerOn_v (s : State) : (s.powerOn).v = Vector.replicate 16 0 := rfl
@[simp] theorem State.powerOn_pc (s : State) : (s.powerOn).pc = 0x200 := rfl
@[simp] theorem State.powerOn_i (s : State) : (s.powerOn).i = 0 := rfl
@[simp] theorem State.powerOn_sp (s : State) : (s.powerOn).sp = 0 := rfl
@[simp] theorem State.powerOn_stack (s : State) : (s.powerOn).stack = s.stack := rfl
@[simp] theorem State.powerOn_dt (s : State) : (s.powerOn).dt = 0 := rfl
@[simp] theorem State.powerOn_st (s : State) : (s.powerOn).st = 0 := rfl
@[simp] theorem State.powerOn_run (s : State) : (s.powerOn).run = .running := rfl
@[simp] theorem State.powerOn_mem (s : State) : (s.powerOn).mem = [] := rfl
@[simp] theorem State.powerOn_fb (s : State) : (s.powerOn).fb = clearScreen := rfl
@[simp] theorem State.powerOn_events (s : State) : (s.powerOn).events = s.events := rfl
@[simp] theorem State.powerOn_samples (s : State) : (s.powerOn).samples = s.samples := rfl
@[simp] theorem State.powerOn_started (s : State) : (s.powerOn).started = false := rfl

/-- The register just written. -/
@[simp] theorem State.reg_setReg_same (s : State) (x : Reg) (b : Byte) : (s.setReg x b).reg x = b := by
  simp [State.reg]

/-- Every other register. -/
theorem State.reg_setReg_ne (s : State) {x y : Reg} (b : Byte) (h : y ≠ x) : (s.setReg x b).reg y = s.reg y := by
  have : x.toNat ≠ y.toNat := fun e => h (BitVec.eq_of_toNat_eq e.symm)
  simp [State.reg, this]

/-- A register after a write, whichever it is. -/
theorem State.reg_setReg (s : State) (x y : Reg) (b : Byte) :
    (s.setReg x b).reg y = if y = x then b else s.reg y := by
  split
  · next h => rw [h, State.reg_setReg_same]
  · next h => exact State.reg_setReg_ne s b h

/-- Registers depend on the register file alone. -/
theorem State.reg_congr {s t : State} (h : t.v = s.v) (x : Reg) : t.reg x = s.reg x := by
  simp [State.reg, h]

@[simp] theorem State.reg_advance (s : State) (x : Reg) : (s.advance).reg x = s.reg x := rfl
@[simp] theorem State.reg_jump (s : State) (x : Reg) (w : Word) : (s.jump w).reg x = s.reg x := rfl
@[simp] theorem State.reg_skipIf (s : State) (x : Reg) (c : Bool) : (s.skipIf c).reg x = s.reg x := rfl
@[simp] theorem State.reg_halt (s : State) (x : Reg) (r : HaltReason) (o : Option Word) (a : Option Nat) : (s.halt r o a).reg x = s.reg x := rfl
@[simp] theorem State.reg_sampled (s : State) (x : Reg) : (s.sampled).reg x = s.reg x := rfl
@[simp] theorem State.reg_start (s : State) (x : Reg) : (s.start).reg x = s.reg x := rfl

/-- Every register is 0 after `reset` (10_state.md R20). -/
@[simp] theorem State.reg_resetEvent (s : State) (x : Reg) : s.resetEvent.reg x = 0 := by
  simp [State.reg]

/-- Every register is 0 after `power_on` (10_state.md R20). -/
@[simp] theorem State.reg_powerOn (s : State) (x : Reg) : s.powerOn.reg x = 0 := by
  simp [State.reg]

end Sys2Proof.Machine
end

