-- ==== Sys2Proof/Laws/Ops.lean ====
section
/-! SUPPORT. One lemma per shared operation saying everything it can do: push and pop, the end of a transfer, the fetch,
the cycle, the choice of the next event. Callers cite these rather than unfold the operation. -/

namespace Sys2Proof.Machine

/-- A push onto a stack that is not full (40_cycle_and_control.md R125). -/
theorem push_of_lt (s : State) (w : Word) (h : s.sp.val < 16) :
    s.push w = some { s with stack := s.stack.set s.sp.val w, sp := ⟨s.sp.val + 1, Nat.succ_lt_succ h⟩ } := by
  simp [State.push, h]

/-- A push onto a full stack. -/
theorem push_of_full (s : State) (w : Word) (h : ¬ s.sp.val < 16) : s.push w = none := by
  simp [State.push, h]

/-- A pop from a stack that is not empty (R126). -/
theorem pop_of_pos (s : State) (k : Nat) (hk : k < 16) (h : s.sp.val = k + 1) :
    s.pop = some (s.stack[k], { s with sp := ⟨k, Nat.lt_succ_of_lt hk⟩ }) := by
  unfold State.pop
  split
  · next h0 => omega
  · next j hj =>
    obtain rfl : j = k := by omega
    rfl

/-- A pop from an empty stack. -/
theorem pop_of_empty (s : State) (h : s.sp.val = 0) : s.pop = none := by
  unfold State.pop
  split
  · rfl
  · omega

/-- A transfer that completed. -/
@[simp] theorem afterTransfer_none (s : State) (i : Instr) : s.afterTransfer i none = s.advance := rfl

/-- A transfer that failed (60_exceptions.md R242). -/
@[simp] theorem afterTransfer_some (s : State) (i : Instr) (a : Nat) :
    s.afterTransfer i (some a) = s.halt .memoryOutOfRange (some (encode i)) (some a) := rfl

/-- The fetch of an instruction that lies in memory (R121). -/
theorem fetch_of_le (s : State) (h : s.pc.toNat ≤ 0xFFE) :
    s.fetch = .ok (wordOfBytes (peek s.mem s.pc.toNat) (peek s.mem (s.pc.toNat + 1))) := by
  simp [State.fetch, memReadWord, validAddr, show s.pc.toNat < 4096 by omega, show s.pc.toNat + 1 < 4096 by omega]

/-- The fetch beyond memory (R121): the first byte address that fails. -/
theorem fetch_of_gt (s : State) (h : 0xFFE < s.pc.toNat) :
    s.fetch = .error (max s.pc.toNat 4096) := by
  unfold State.fetch memReadWord validAddr
  by_cases h1 : s.pc.toNat < 4096
  · rw [if_pos (by simpa using h1), if_neg (by simp; omega)]
    congr 1
    omega
  · rw [if_neg (by simpa using h1)]
    congr 1
    omega

/-- A cycle outside Running (R123). -/
theorem cycle_of_not_running (s : State) (h : s.run ≠ .running) : cycle s = .next s := by
  unfold cycle
  split
  · rfl
  · rfl
  · next h' => exact absurd h' h

/-- A cycle in Running. -/
theorem cycle_of_running (s : State) (h : s.run = .running) : cycle s = cycleRunning s.start := by
  simp [cycle, h]

/-- Everything a cycle in Running can be (R122): a fetch fault, an Unknown word, or the instruction fetched. -/
theorem cycleRunning_cases (s : State) :
    (0xFFE < s.pc.toNat ∧ cycleRunning s = .next (s.halt .memoryOutOfRange none (some (max s.pc.toNat 4096)))) ∨
    (s.pc.toNat ≤ 0xFFE ∧ ∃ w, s.fetch = .ok w ∧ decode w = none ∧
      cycleRunning s = .next (s.halt .invalidOpcode (some w) none)) ∨
    (s.pc.toNat ≤ 0xFFE ∧ ∃ w i, s.fetch = .ok w ∧ decode w = some i ∧ cycleRunning s = exec i s) := by
  by_cases h : s.pc.toNat ≤ 0xFFE
  · refine .inr ?_
    have hf := fetch_of_le s h
    cases hd : decode (wordOfBytes (peek s.mem s.pc.toNat) (peek s.mem (s.pc.toNat + 1))) with
    | none => exact .inl ⟨h, _, hf, hd, by simp [cycleRunning, hf, hd]⟩
    | some i => exact .inr ⟨h, _, i, hf, hd, by simp [cycleRunning, hf, hd]⟩
  · have hf := fetch_of_gt s (by omega)
    exact .inl ⟨by omega, by simp [cycleRunning, hf]⟩

/-- The step when the environment has chosen nothing more: a cycle. -/
theorem step_nil (s : State) (h : s.events = []) : step s = cycle s := by
  simp [step, takeEvent, h, event]

/-- The step when the environment has chosen an event. -/
theorem step_cons (s : State) (e : Event) (rest : List Event) (h : s.events = e :: rest) :
    step s = event e { s with events := rest } := by
  simp [step, takeEvent, h]

/-- A request in range at the write port (10_state.md R41). -/
theorem hostWritePort_of_valid (m : List Host.Cell) (addr v : Int) (h0 : 0 ≤ addr) (h : addr ≤ 4095) :
    hostWritePort m addr v = .ok (poke m addr.toNat (BitVec.ofInt 8 v)) := by
  have : addr.toNat < 4096 := by omega
  simp [hostWritePort, memWrite, validAddr, h0, this]

/-- A request out of range at the write port is refused (R41, 60_exceptions.md R245). -/
theorem hostWritePort_of_invalid (m : List Host.Cell) (addr v : Int) (h : addr < 0 ∨ 4095 < addr) :
    hostWritePort m addr v = .error .outOfRange := by
  unfold hostWritePort
  split
  · next h0 =>
    have : ¬ addr.toNat < 4096 := by omega
    simp [memWrite, validAddr, this]
  · rfl

/-- A request at the write port keeps the canonical form. -/
theorem wf_hostPoke (m : List Host.Cell) (addr v : Int) (h : Memory.wf m = true) :
    Memory.wf (hostPoke m addr v) = true := by
  unfold hostPoke
  by_cases hr : 0 ≤ addr ∧ addr ≤ 4095
  · rw [hostWritePort_of_valid m addr v hr.1 hr.2]
    exact wf_poke m _ (by omega) h
  · rw [hostWritePort_of_invalid m addr v (by omega)]
    exact h

/-- The flag's byte, read as a number: 0 or 1 (10_state.md R22). -/
theorem flagByte_toNat (b : Bool) : (flagByte b).toNat = if b then 1 else 0 := by
  cases b <;> rfl

/-- A timer's decrement as a number: it stops at 0 (44_keypad_and_timers.md R231). -/
theorem countDown_toNat (t : Byte) : (countDown t).toNat = t.toNat - 1 := by
  unfold countDown
  split
  · next h => simp [h]
  · next h =>
    have : t.toNat ≠ 0 := fun e => h (BitVec.eq_of_toNat_eq e)
    rw [BitVec.toNat_sub]
    have := t.isLt
    simp
    omega

end Sys2Proof.Machine
end

