-- ==== Sys2Proof/Laws/Exec.lean ====
section
/-! SUPPORT. The instructions that can end in two ways (40_cycle_and_control.md R122; 60_exceptions.md R240): one lemma
each that says both. And what the flag-defining ALU instructions leave in the registers. -/

namespace Sys2Proof.Machine

/-- The registers after a flag and a result were written (41_alu.md R150): the result wins. -/
theorem reg_writeFlagged (s : State) (x y : Reg) (flag result : Byte) :
    (s.writeFlagged x flag result).reg y = if y = x then result else if y = 15 then flag else s.reg y := by
  simp only [State.writeFlagged, State.reg_advance, State.reg_setReg]

/-- CALL (R125): room on the stack, or the halt. -/
theorem execCall_cases (nnn : Addr) (s : State) :
    (∃ h : s.sp.val < 16, execCall nnn s = .next
      { s with
        pc := nnn.setWidth 16, stack := s.stack.set s.sp.val (s.pc + 2), sp := ⟨s.sp.val + 1, Nat.succ_lt_succ h⟩ }) ∨
    (s.sp.val = 16 ∧ execCall nnn s = .next (s.halt .stackOverflow (some (encode (.call nnn))) none)) := by
  by_cases h : s.sp.val < 16
  · exact .inl ⟨h, by rw [execCall, push_of_lt s _ h]; rfl⟩
  · exact .inr ⟨by omega, by rw [execCall, push_of_full s _ h]⟩

/-- RET (R126): an entry on the stack, or the halt. -/
theorem execRet_cases (s : State) :
    (∃ k : Fin 16, s.sp.val = k.val + 1 ∧
      execRet s = .next { s with pc := s.stack[k], sp := ⟨k.val, Nat.lt_succ_of_lt k.isLt⟩ }) ∨
    (s.sp.val = 0 ∧ execRet s = .next (s.halt .stackUnderflow (some (encode .ret)) none)) := by
  by_cases h : s.sp.val = 0
  · exact .inr ⟨h, by rw [execRet, pop_of_empty s h]⟩
  · obtain ⟨k, hk⟩ := Nat.exists_eq_succ_of_ne_zero h
    exact .inl ⟨⟨k, by omega⟩, hk, by rw [execRet, pop_of_pos s k (by omega) hk]; rfl⟩

/-- DRW (43_display.md R205): all its bytes in memory, or the halt with nothing changed. -/
theorem execDrw_cases (x y : Reg) (n : BitVec 4) (s : State) :
    ((n.toNat = 0 ∨ s.base + n.toNat ≤ 4096) ∧ execDrw x y n s =
      .next (s.drawAt x y ((List.range n.toNat).map (fun k => peek s.mem (s.base + k)))).advance) ∨
    (n.toNat ≠ 0 ∧ 4096 < s.base + n.toNat ∧ execDrw x y n s =
      .next (s.halt .memoryOutOfRange (some (encode (.drw x y n))) (some (max s.base 4096)))) := by
  by_cases h : n.toNat = 0 ∨ s.base + n.toNat ≤ 4096
  · exact .inl ⟨h, by rw [execDrw, readBytes_ok _ _ _ h]⟩
  · exact .inr ⟨by omega, by omega, by rw [execDrw, readBytes_error _ _ _ (by omega) (by omega)]⟩

/-- LDBCD (42_index_and_memory.md R183): all three bytes stored, or the halt after those that fit. -/
theorem execLdbcd_cases (x : Reg) (s : State) :
    (s.base + 3 ≤ 4096 ∧ execLdbcd x s =
      .next { s with mem := (storeBytes s.mem s.base (bcdDigits (s.reg x))).1 }.advance) ∨
    (4096 < s.base + 3 ∧ execLdbcd x s =
      .next ({ s with mem := (storeBytes s.mem s.base (bcdDigits (s.reg x))).1 }.halt
        .memoryOutOfRange (some (encode (.ldbcd x))) (some (max s.base 4096)))) := by
  have hl : (bcdDigits (s.reg x)).length = 3 := rfl
  by_cases h : s.base + 3 ≤ 4096
  · exact .inl ⟨h, by simp only [execLdbcd, failed_storeBytes, hl, h, or_true, if_true, afterTransfer_none]⟩
  · refine .inr ⟨by omega, ?_⟩
    simp only [execLdbcd, failed_storeBytes, hl, h, or_false, OfNat.ofNat_ne_zero, if_false, afterTransfer_some]

/-- The number of registers LDIR stores (R184). -/
theorem length_regsUpTo (s : State) (x : Reg) : (s.regsUpTo x).length = x.toNat + 1 := by
  have := x.isLt
  simp only [State.regsUpTo, List.length_take, Vector.length_toList]
  omega

/-- LDIR (R184): all x + 1 bytes stored, or the halt after those that fit. -/
theorem execLdir_cases (x : Reg) (s : State) :
    (s.base + (x.toNat + 1) ≤ 4096 ∧ execLdir x s =
      .next { s with mem := (storeBytes s.mem s.base (s.regsUpTo x)).1 }.advance) ∨
    (4096 < s.base + (x.toNat + 1) ∧ execLdir x s =
      .next ({ s with mem := (storeBytes s.mem s.base (s.regsUpTo x)).1 }.halt
        .memoryOutOfRange (some (encode (.ldir x))) (some (max s.base 4096)))) := by
  have hl := length_regsUpTo s x
  by_cases h : s.base + (x.toNat + 1) ≤ 4096
  · exact .inl ⟨h, by simp only [execLdir, failed_storeBytes, hl, h, or_true, if_true, afterTransfer_none]⟩
  · refine .inr ⟨by omega, ?_⟩
    simp only [execLdir, failed_storeBytes, hl, h, or_false, Nat.succ_ne_zero, if_false, afterTransfer_some]

/-- LDRI (R185): all x + 1 registers loaded, or the halt after those that fit. -/
theorem execLdri_cases (x : Reg) (s : State) :
    (s.base + (x.toNat + 1) ≤ 4096 ∧ execLdri x s =
      .next { s with v := (loadRegs s.mem s.base 0 (x.toNat + 1) s.v).1 }.advance) ∨
    (4096 < s.base + (x.toNat + 1) ∧ execLdri x s =
      .next ({ s with v := (loadRegs s.mem s.base 0 (x.toNat + 1) s.v).1 }.halt
        .memoryOutOfRange (some (encode (.ldri x))) (some (max s.base 4096)))) := by
  by_cases h : s.base + (x.toNat + 1) ≤ 4096
  · exact .inl ⟨h, by simp only [execLdri, failed_loadRegs, h, or_true, if_true, afterTransfer_none]⟩
  · refine .inr ⟨by omega, ?_⟩
    simp only [execLdri, failed_loadRegs, h, or_false, Nat.succ_ne_zero, if_false, afterTransfer_some]

end Sys2Proof.Machine
end

