-- ==== Sys2Proof/Laws/PerInstr.lean ====
section
/-! SUPPORT. The per-instruction family SelectsItsRow: the word of an instruction selects the row of the opcode table
that has the instruction's mnemonic (30_encoding.md R101). One lemma per constructor of Instr. -/

namespace Sys2Proof.Laws.SelectsItsRow

/-- The encoded word selects a row with the instruction's own mnemonic. -/
def Statement (i : Instr) : Prop := ∃ r ∈ opcodeTable, r.mnemonic = i.mnemonic ∧ r.selects (encode i) = true

/-- A row of the table selects a word when the masked word is its pattern. -/
theorem of_row {i : Instr} (r : Row) (hm : r ∈ opcodeTable) (hn : r.mnemonic = i.mnemonic)
    (hw : encode i &&& r.mask = r.pattern) : Statement i :=
  ⟨r, hm, hn, by simp [Row.selects, hw]⟩

theorem cls : Statement (.cls) :=
  of_row ⟨"CLS", 0xFFFF, 0x00E0⟩ (by decide) rfl (rfl)

theorem ret : Statement (.ret) :=
  of_row ⟨"RET", 0xFFFF, 0x00EE⟩ (by decide) rfl (rfl)

theorem jp (nnn : Addr) : Statement (.jp nnn) :=
  of_row ⟨"JP", 0xF000, 0x1000⟩ (by decide) rfl ((mask_op_wordFNNN _ nnn).trans rfl)

theorem call (nnn : Addr) : Statement (.call nnn) :=
  of_row ⟨"CALL", 0xF000, 0x2000⟩ (by decide) rfl ((mask_op_wordFNNN _ nnn).trans rfl)

theorem se (x : Reg) (kk : Byte) : Statement (.se x kk) :=
  of_row ⟨"SE", 0xF000, 0x3000⟩ (by decide) rfl ((mask_op_wordFXKK _ x kk).trans rfl)

theorem sne (x : Reg) (kk : Byte) : Statement (.sne x kk) :=
  of_row ⟨"SNE", 0xF000, 0x4000⟩ (by decide) rfl ((mask_op_wordFXKK _ x kk).trans rfl)

theorem ser (x y : Reg) : Statement (.ser x y) :=
  of_row ⟨"SER", 0xF00F, 0x5000⟩ (by decide) rfl ((mask_selector_wordFXYN _ x y _).trans rfl)

theorem ld (x : Reg) (kk : Byte) : Statement (.ld x kk) :=
  of_row ⟨"LD", 0xF000, 0x6000⟩ (by decide) rfl ((mask_op_wordFXKK _ x kk).trans rfl)

theorem add (x : Reg) (kk : Byte) : Statement (.add x kk) :=
  of_row ⟨"ADD", 0xF000, 0x7000⟩ (by decide) rfl ((mask_op_wordFXKK _ x kk).trans rfl)

theorem ldr (x y : Reg) : Statement (.ldr x y) :=
  of_row ⟨"LDR", 0xF00F, 0x8000⟩ (by decide) rfl ((mask_selector_wordFXYN _ x y _).trans rfl)

theorem or (x y : Reg) : Statement (.or x y) :=
  of_row ⟨"OR", 0xF00F, 0x8001⟩ (by decide) rfl ((mask_selector_wordFXYN _ x y _).trans rfl)

theorem and (x y : Reg) : Statement (.and x y) :=
  of_row ⟨"AND", 0xF00F, 0x8002⟩ (by decide) rfl ((mask_selector_wordFXYN _ x y _).trans rfl)

theorem xor (x y : Reg) : Statement (.xor x y) :=
  of_row ⟨"XOR", 0xF00F, 0x8003⟩ (by decide) rfl ((mask_selector_wordFXYN _ x y _).trans rfl)

theorem addr (x y : Reg) : Statement (.addr x y) :=
  of_row ⟨"ADDR", 0xF00F, 0x8004⟩ (by decide) rfl ((mask_selector_wordFXYN _ x y _).trans rfl)

theorem sub (x y : Reg) : Statement (.sub x y) :=
  of_row ⟨"SUB", 0xF00F, 0x8005⟩ (by decide) rfl ((mask_selector_wordFXYN _ x y _).trans rfl)

theorem shr (x : Reg) : Statement (.shr x) :=
  of_row ⟨"SHR", 0xF00F, 0x8006⟩ (by decide) rfl ((mask_selector_wordFXYN _ x _ _).trans rfl)

theorem subn (x y : Reg) : Statement (.subn x y) :=
  of_row ⟨"SUBN", 0xF00F, 0x8007⟩ (by decide) rfl ((mask_selector_wordFXYN _ x y _).trans rfl)

theorem shl (x : Reg) : Statement (.shl x) :=
  of_row ⟨"SHL", 0xF00F, 0x800E⟩ (by decide) rfl ((mask_selector_wordFXYN _ x _ _).trans rfl)

theorem sner (x y : Reg) : Statement (.sner x y) :=
  of_row ⟨"SNER", 0xF00F, 0x9000⟩ (by decide) rfl ((mask_selector_wordFXYN _ x y _).trans rfl)

theorem ldi (nnn : Addr) : Statement (.ldi nnn) :=
  of_row ⟨"LDI", 0xF000, 0xA000⟩ (by decide) rfl ((mask_op_wordFNNN _ nnn).trans rfl)

theorem jpo (nnn : Addr) : Statement (.jpo nnn) :=
  of_row ⟨"JPO", 0xF000, 0xB000⟩ (by decide) rfl ((mask_op_wordFNNN _ nnn).trans rfl)

theorem rnd (x : Reg) (kk : Byte) : Statement (.rnd x kk) :=
  of_row ⟨"RND", 0xF000, 0xC000⟩ (by decide) rfl ((mask_op_wordFXKK _ x kk).trans rfl)

theorem drw (x y : Reg) (n : BitVec 4) : Statement (.drw x y n) :=
  of_row ⟨"DRW", 0xF000, 0xD000⟩ (by decide) rfl ((mask_op_wordFXYN _ x y n).trans rfl)

theorem skp (x : Reg) : Statement (.skp x) :=
  of_row ⟨"SKP", 0xF0FF, 0xE09E⟩ (by decide) rfl ((mask_selector_wordFXKK _ x _).trans rfl)

theorem sknp (x : Reg) : Statement (.sknp x) :=
  of_row ⟨"SKNP", 0xF0FF, 0xE0A1⟩ (by decide) rfl ((mask_selector_wordFXKK _ x _).trans rfl)

theorem lddt (x : Reg) : Statement (.lddt x) :=
  of_row ⟨"LDDT", 0xF0FF, 0xF007⟩ (by decide) rfl ((mask_selector_wordFXKK _ x _).trans rfl)

theorem ldkp (x : Reg) : Statement (.ldkp x) :=
  of_row ⟨"LDKP", 0xF0FF, 0xF00A⟩ (by decide) rfl ((mask_selector_wordFXKK _ x _).trans rfl)

theorem lddtr (x : Reg) : Statement (.lddtr x) :=
  of_row ⟨"LDDTR", 0xF0FF, 0xF015⟩ (by decide) rfl ((mask_selector_wordFXKK _ x _).trans rfl)

theorem ldst (x : Reg) : Statement (.ldst x) :=
  of_row ⟨"LDST", 0xF0FF, 0xF018⟩ (by decide) rfl ((mask_selector_wordFXKK _ x _).trans rfl)

theorem addi (x : Reg) : Statement (.addi x) :=
  of_row ⟨"ADDI", 0xF0FF, 0xF01E⟩ (by decide) rfl ((mask_selector_wordFXKK _ x _).trans rfl)

theorem lds (x : Reg) : Statement (.lds x) :=
  of_row ⟨"LDS", 0xF0FF, 0xF029⟩ (by decide) rfl ((mask_selector_wordFXKK _ x _).trans rfl)

theorem ldbcd (x : Reg) : Statement (.ldbcd x) :=
  of_row ⟨"LDBCD", 0xF0FF, 0xF033⟩ (by decide) rfl ((mask_selector_wordFXKK _ x _).trans rfl)

theorem ldir (x : Reg) : Statement (.ldir x) :=
  of_row ⟨"LDIR", 0xF0FF, 0xF055⟩ (by decide) rfl ((mask_selector_wordFXKK _ x _).trans rfl)

theorem ldri (x : Reg) : Statement (.ldri x) :=
  of_row ⟨"LDRI", 0xF0FF, 0xF065⟩ (by decide) rfl ((mask_selector_wordFXKK _ x _).trans rfl)

end Sys2Proof.Laws.SelectsItsRow
end

