-- ==== Sys2Proof/Laws/Screen.lean ====
section
/-! SUPPORT. The laws of the framebuffer: a cell read after a cell written, what one loop body of `drawSprite` does, and
what a whole sprite does. -/

namespace Sys2Proof.Machine

/-- A cell write leaves the cell as it is, when it holds the bit already, or flips it. -/
theorem setPixel_eq (fb : Screen) (x : Fin 64) (y : Fin 32) (b : Bool) :
    setPixel fb x y b =
      if pixel fb x y = b then fb else fb.set y.val (fb[y.val] ^^^ BitVec.twoPow 64 x.val) := by
  unfold setPixel
  split <;> simp

/-- The cell just written. -/
@[simp] theorem pixel_setPixel_same (fb : Screen) (x : Fin 64) (y : Fin 32) (b : Bool) :
    pixel (setPixel fb x y b) x y = b := by
  rw [setPixel_eq]
  split
  · assumption
  · next h =>
    have e : pixel (fb.set y.val (fb[y.val] ^^^ BitVec.twoPow 64 x.val)) x y = !pixel fb x y := by
      simp [pixel]
    rw [e]
    cases hb : pixel fb x y <;> cases b <;> simp_all

/-- Every other cell. -/
theorem pixel_setPixel_ne (fb : Screen) {x x' : Fin 64} {y y' : Fin 32} (b : Bool) (h : ¬ (x' = x ∧ y' = y)) :
    pixel (setPixel fb x y b) x' y' = pixel fb x' y' := by
  rw [setPixel_eq]
  split
  · rfl
  · by_cases hy : y' = y
    · subst hy
      have hx : x.val ≠ x'.val := fun e => h ⟨Fin.ext e.symm, rfl⟩
      simp [pixel, Ne.symm hx]
    · have hy' : y.val ≠ y'.val := fun e => hy (Fin.ext e.symm)
      simp [pixel, Vector.getElem_set_ne _ _ hy']

/-- A cell after a cell write, whichever it is. -/
theorem pixel_setPixel (fb : Screen) (x x' : Fin 64) (y y' : Fin 32) (b : Bool) :
    pixel (setPixel fb x y b) x' y' = if x' = x ∧ y' = y then b else pixel fb x' y' := by
  split
  · next h => rw [h.1, h.2, pixel_setPixel_same]
  · next h => exact pixel_setPixel_ne fb b h

/-- A cleared framebuffer (43_display.md R201). -/
@[simp] theorem pixel_clearScreen (x : Fin 64) (y : Fin 32) : pixel clearScreen x y = false := by
  simp [pixel, clearScreen]

/-- Two framebuffers with equal cells are equal. -/
theorem screen_ext {f g : Screen} (h : ∀ x y, pixel f x y = pixel g x y) : f = g := by
  apply Vector.ext
  intro y hy
  apply BitVec.eq_of_getLsbD_eq
  intro x hx
  exact h ⟨x, hx⟩ ⟨y, hy⟩

@[simp] theorem wrapColumn_val (x0 c : Nat) : (wrapColumn x0 c).val = (x0 + c) % 64 := rfl

@[simp] theorem wrapRow_val (y0 r : Nat) : (wrapRow y0 r).val = (y0 + r) % 32 := rfl

/-- One loop body (43_display.md R202): its cell is XORed with its sprite bit, every other cell stays. -/
theorem pixel_drawPixel (x0 y0 r : Nat) (row : Byte) (p : Screen × Bool) (c : Nat) (x : Fin 64) (y : Fin 32) :
    pixel (drawPixel x0 y0 r row p c).1 x y =
      (pixel p.1 x y ^^ (decide (x = wrapColumn x0 c ∧ y = wrapRow y0 r) && spriteBit row c)) := by
  simp only [drawPixel, pixel_setPixel]
  split
  · next h => simp [h.1, h.2]
  · next h => simp [h]

/-- One loop body (43_display.md R203): a collision is recorded exactly when a set cell meets a 1 bit. -/
theorem collided_drawPixel (x0 y0 r : Nat) (row : Byte) (p : Screen × Bool) (c : Nat) :
    (drawPixel x0 y0 r row p c).2 =
      (p.2 || (pixel p.1 (wrapColumn x0 c) (wrapRow y0 r) && spriteBit row c)) := by
  simp only [drawPixel]
  cases pixel p.1 (wrapColumn x0 c) (wrapRow y0 r) <;> cases spriteBit row c <;> simp

/-! ### A whole sprite -/

/-- One bit of a sprite row falls on the cell (x, y) and is set (43_display.md R202). -/
def bitSets (x0 y0 r : Nat) (row : Byte) (x : Fin 64) (y : Fin 32) (c : Nat) : Bool :=
  decide (x = wrapColumn x0 c ∧ y = wrapRow y0 r) && spriteBit row c

/-- Two different bit-columns of a row fall on different cells (43_display.md R206 (a)). -/
theorem wrapColumn_ne (x0 : Nat) {c d : Nat} (hc : c < 8) (hd : d < 8) (h : d ≠ c) : wrapColumn x0 d ≠ wrapColumn x0 c := by
  intro e
  have e := congrArg Fin.val e
  simp only [wrapColumn_val] at e
  omega

/-- The cells a run of bit-columns sets are flipped, no other. -/
theorem pixel_foldl_drawPixel (x0 y0 r : Nat) (row : Byte) (x : Fin 64) (y : Fin 32) (cs : List Nat) (hn : cs.Nodup)
    (hc : ∀ c ∈ cs, c < 8) (p : Screen × Bool) :
    pixel (cs.foldl (drawPixel x0 y0 r row) p).1 x y = (pixel p.1 x y ^^ cs.any (bitSets x0 y0 r row x y)) := by
  induction cs generalizing p with
  | nil => simp
  | cons c cs ih =>
    obtain ⟨hcs, hn⟩ := List.nodup_cons.1 hn
    rw [List.foldl_cons, ih hn (fun d hd => hc d (List.mem_cons_of_mem _ hd)), pixel_drawPixel, Bool.xor_assoc,
      List.any_cons]
    congr 1
    by_cases hx : x = wrapColumn x0 c
    · have h0 : cs.any (bitSets x0 y0 r row x y) = false := by
        rw [List.any_eq_false]
        intro d hd
        have := wrapColumn_ne x0 (hc c List.mem_cons_self) (hc d (List.mem_cons_of_mem _ hd)) (fun e => hcs (e ▸ hd))
        simp [bitSets, hx, this.symm]
      rw [h0, Bool.xor_false, Bool.or_false, bitSets]
    · simp [bitSets, hx]

/-- A run of bit-columns collides when a set cell meets a set bit. -/
theorem collided_foldl_drawPixel (x0 y0 r : Nat) (row : Byte) (cs : List Nat) (hn : cs.Nodup)
    (hc : ∀ c ∈ cs, c < 8) (p : Screen × Bool) :
    (cs.foldl (drawPixel x0 y0 r row) p).2 = true ↔
      p.2 = true ∨ ∃ c ∈ cs, pixel p.1 (wrapColumn x0 c) (wrapRow y0 r) = true ∧ spriteBit row c = true := by
  induction cs generalizing p with
  | nil => simp
  | cons c cs ih =>
    obtain ⟨hcs, hn⟩ := List.nodup_cons.1 hn
    have hp : ∀ d ∈ cs, pixel (drawPixel x0 y0 r row p c).1 (wrapColumn x0 d) (wrapRow y0 r) =
        pixel p.1 (wrapColumn x0 d) (wrapRow y0 r) := by
      intro d hd
      have := wrapColumn_ne x0 (hc c List.mem_cons_self) (hc d (List.mem_cons_of_mem _ hd)) (fun e => hcs (e ▸ hd))
      rw [pixel_drawPixel]
      simp [this]
    rw [List.foldl_cons, ih hn (fun d hd => hc d (List.mem_cons_of_mem _ hd)), collided_drawPixel, Bool.or_eq_true,
      Bool.and_eq_true, or_assoc, List.exists_mem_cons_iff]
    refine or_congr Iff.rfl (or_congr Iff.rfl (exists_congr fun d => and_congr_right fun hd => ?_))
    rw [hp d hd]

/-- The rows of a sprite, from number r on, set the cell (x, y) (43_display.md R202). -/
def rowsSet (x0 y0 r : Nat) (rows : List Byte) (x : Fin 64) (y : Fin 32) : Bool :=
  match rows with
  | [] => false
  | row :: rest => [0, 1, 2, 3, 4, 5, 6, 7].any (bitSets x0 y0 r row x y) || rowsSet x0 y0 (r + 1) rest x y

/-- The bit-columns are those below 8. -/
theorem mem_columns_iff (c : Nat) : c ∈ [0, 1, 2, 3, 4, 5, 6, 7] ↔ c < 8 := by
  simp only [List.mem_cons, List.not_mem_nil, or_false]
  omega

/-- One row sets a cell. -/
theorem any_bitSets_iff (x0 y0 r : Nat) (row : Byte) (x : Fin 64) (y : Fin 32) :
    [0, 1, 2, 3, 4, 5, 6, 7].any (bitSets x0 y0 r row x y) = true ↔
      ∃ c, c < 8 ∧ x = wrapColumn x0 c ∧ y = wrapRow y0 r ∧ spriteBit row c = true := by
  simp only [List.any_eq_true, mem_columns_iff, bitSets, Bool.and_eq_true, decide_eq_true_iff, and_assoc]

/-- The rows of a sprite set a cell: some row and bit-column fall on it and the bit is set. -/
theorem rowsSet_iff (x0 y0 r : Nat) (rows : List Byte) (x : Fin 64) (y : Fin 32) :
    rowsSet x0 y0 r rows x y = true ↔
      ∃ k c, ∃ h : k < rows.length, c < 8 ∧ x = wrapColumn x0 c ∧ y = wrapRow y0 (r + k) ∧ spriteBit rows[k] c = true := by
  induction rows generalizing r with
  | nil => simp [rowsSet]
  | cons row rest ih =>
    rw [rowsSet, Bool.or_eq_true, any_bitSets_iff, ih]
    constructor
    · rintro (⟨c, h⟩ | ⟨k, c, hk, h⟩)
      · exact ⟨0, c, Nat.succ_pos _, h⟩
      · rw [show r + 1 + k = r + (k + 1) by omega] at h
        exact ⟨k + 1, c, Nat.succ_lt_succ hk, h⟩
    · rintro ⟨k, c, hk, h⟩
      cases k with
      | zero => exact .inl ⟨c, h⟩
      | succ k =>
        rw [show r + (k + 1) = r + 1 + k by omega] at h
        exact .inr ⟨k, c, Nat.lt_of_succ_lt_succ hk, h⟩

/-- A row's cells and a later row's cells are different (43_display.md R206 (a)). -/
theorem not_rowsSet_later (x0 y0 r : Nat) (rows : List Byte) (h : rows.length ≤ 31) (x : Fin 64) :
    rowsSet x0 y0 (r + 1) rows x (wrapRow y0 r) = false := by
  rw [Bool.eq_false_iff, ne_eq, rowsSet_iff]
  rintro ⟨k, c, hk, _, _, e, _⟩
  have e := congrArg Fin.val e
  simp only [wrapRow_val] at e
  omega

/-- A cell in another row than row r is not set by row r. -/
theorem any_bitSets_of_ne (x0 y0 r : Nat) (row : Byte) (x : Fin 64) {y : Fin 32} (h : y ≠ wrapRow y0 r) :
    [0, 1, 2, 3, 4, 5, 6, 7].any (bitSets x0 y0 r row x y) = false := by
  rw [Bool.eq_false_iff, ne_eq, any_bitSets_iff]
  rintro ⟨c, _, _, e, _⟩
  exact h e

/-- The framebuffer after one row. -/
theorem pixel_drawRow (x0 y0 r : Nat) (row : Byte) (p : Screen × Bool) (x : Fin 64) (y : Fin 32) :
    pixel (drawRow x0 y0 r row p).1 x y =
      (pixel p.1 x y ^^ [0, 1, 2, 3, 4, 5, 6, 7].any (bitSets x0 y0 r row x y)) :=
  pixel_foldl_drawPixel x0 y0 r row x y _ (by decide) (by decide) p

/-- The framebuffer after the rows of a sprite (43_display.md R206 (b)): every cell they set is flipped, no other. -/
theorem pixel_drawRows (x0 y0 r : Nat) (rows : List Byte) (h : rows.length ≤ 32) (p : Screen × Bool)
    (x : Fin 64) (y : Fin 32) :
    pixel (drawRows x0 y0 r rows p).1 x y = (pixel p.1 x y ^^ rowsSet x0 y0 r rows x y) := by
  induction rows generalizing r p with
  | nil => simp [drawRows, rowsSet]
  | cons row rest ih =>
    have hl : rest.length ≤ 31 := Nat.le_of_succ_le_succ h
    rw [drawRows, ih (r + 1) (by omega), pixel_drawRow, Bool.xor_assoc, rowsSet]
    congr 1
    by_cases hy : y = wrapRow y0 r
    · rw [hy, not_rowsSet_later x0 y0 r rest hl, Bool.xor_false, Bool.or_false]
    · rw [any_bitSets_of_ne x0 y0 r row x hy, Bool.false_xor, Bool.false_or]

/-- The collision of the rows of a sprite (43_display.md R203): a set cell met a set bit. -/
theorem collided_drawRows (x0 y0 r : Nat) (rows : List Byte) (h : rows.length ≤ 32) (p : Screen × Bool) :
    (drawRows x0 y0 r rows p).2 = true ↔
      p.2 = true ∨ ∃ x y, pixel p.1 x y = true ∧ rowsSet x0 y0 r rows x y = true := by
  induction rows generalizing r p with
  | nil => simp [drawRows, rowsSet]
  | cons row rest ih =>
    have hl : rest.length ≤ 31 := Nat.le_of_succ_le_succ h
    have hrow : (drawRow x0 y0 r row p).2 = true ↔
        p.2 = true ∨ ∃ x y, pixel p.1 x y = true ∧ [0, 1, 2, 3, 4, 5, 6, 7].any (bitSets x0 y0 r row x y) = true := by
      rw [drawRow, collided_foldl_drawPixel x0 y0 r row _ (by decide) (by decide)]
      refine or_congr Iff.rfl ?_
      simp only [any_bitSets_iff, mem_columns_iff]
      constructor
      · rintro ⟨c, hc, h1, h2⟩
        exact ⟨_, _, h1, c, hc, rfl, rfl, h2⟩
      · rintro ⟨x, y, h1, c, hc, rfl, rfl, h2⟩
        exact ⟨c, hc, h1, h2⟩
    have hlater : ∀ x y, rowsSet x0 y0 (r + 1) rest x y = true →
        (pixel (drawRow x0 y0 r row p).1 x y = true ↔ pixel p.1 x y = true) := by
      intro x y hs
      have hy : y ≠ wrapRow y0 r := by
        rintro rfl
        rw [not_rowsSet_later x0 y0 r rest hl] at hs
        cases hs
      rw [pixel_drawRow, any_bitSets_of_ne x0 y0 r row x hy, Bool.xor_false]
    rw [drawRows, ih (r + 1) (by omega), hrow, or_assoc]
    refine or_congr Iff.rfl ?_
    simp only [rowsSet, Bool.or_eq_true]
    constructor
    · rintro (⟨x, y, h1, h2⟩ | ⟨x, y, h1, h2⟩)
      · exact ⟨x, y, h1, .inl h2⟩
      · exact ⟨x, y, (hlater x y h2).1 h1, .inr h2⟩
    · rintro ⟨x, y, h1, h2 | h2⟩
      · exact .inl ⟨x, y, h1, h2⟩
      · exact .inr ⟨x, y, (hlater x y h2).2 h1, h2⟩

end Sys2Proof.Machine
end

