-- ==== Sys2Proof/Tests/Slice0.lean ====
section
/-! SUPPORT. The model's own tests. Expected results are the spec's: its test vectors (95_test_vectors.md, cited by their
ids) or its encodings (30_encoding.md). Then, for every statement that has hypotheses, a witness that meets them. -/

namespace Sys2Proof.Tests

open Sys2Proof Sys2Proof.Machine

/-! ### Helpers -/

/-- A fact read off a next state; a fault or a refusal gives nothing. -/
def after {α : Type} (o : Host.Outcome State Fault Refusal) (f : State → α) : Option α :=
  match o with
  | .next t => some (f t)
  | .fault _ => none
  | .refused _ => none

/-- The state after power_on with some registers set. -/
def withRegs (l : List (Reg × Byte)) : State := l.foldl (fun s p => s.setReg p.1 p.2) State.reset

/-- One cycle on a word placed at PC. -/
def cycleOn (s : State) (w : Nat) : Host.Outcome State Fault Refusal := step (s.withFetchWord 16 w)

/-- A framebuffer with the given cells set. -/
def lit (l : List (Fin 64 × Fin 32)) : Screen := l.foldl (fun fb p => setPixel fb p.1 p.2 true) clearScreen

/-- The record of a halt at PC. -/
def haltedAt (r : HaltReason) (pc : Word) (w : Option Word) (a : Option Nat) : RunState := .halted ⟨r, pc, w, a⟩

/-- A machine that has started and waits for a key into V1. -/
def waiting : State := { State.reset with run := .waitingForKey 1, started := true }

/-- A machine that has started and halted on 0xFFFF (vector K22). -/
def halted : State :=
  { State.reset with
    run := haltedAt .invalidOpcode 0x200 (some 0xFFFF) none, started := true, dt := 5, st := 5 }

/-! ### Well-formed words: each check of the decoder refuses an ill-formed word -/

theorem test_group0_refuses : recognised 0x0000 = false ∧ decode 0x0000 = none ∧ recognised 0x0123 = false ∧
    decode 0x0123 = none ∧ decode 0x00E1 = none := by decide

theorem test_group5_refuses : recognised 0x5121 = false ∧ decode 0x5121 = none := by decide

theorem test_group8_refuses : recognised 0x8128 = false ∧ decode 0x8128 = none ∧ decode 0x812F = none := by decide

theorem test_group9_refuses : recognised 0x9125 = false ∧ decode 0x9125 = none := by decide

theorem test_groupE_refuses : recognised 0xE49F = false ∧ decode 0xE49F = none := by decide

theorem test_groupF_refuses : recognised 0xF10B = false ∧ decode 0xF10B = none ∧ recognised 0xFFFF = false ∧
    decode 0xFFFF = none := by decide

theorem test_short_bytes_refused : decodeBytes [0x60] = .error .truncated ∧
    decodeBytes [0xFF, 0xFF] = .error (.unknown 0xFFFF) ∧ decodeBytes [0x60, 0x05, 0x70] = .ok (.ld 0 5, [0x70]) := by
  refine ⟨rfl, rfl, rfl⟩

/-! ### Decoding: a word of every constructor, written out from the patterns of R96 to R100 -/

theorem test_decode_control : decode 0x00E0 = some .cls ∧ decode 0x00EE = some .ret ∧ decode 0x1234 = some (.jp 0x234) ∧
    decode 0x2345 = some (.call 0x345) ∧ decode 0xB300 = some (.jpo 0x300) := by decide

theorem test_decode_skips : decode 0x332A = some (.se 3 0x2A) ∧ decode 0x432B = some (.sne 3 0x2B) ∧
    decode 0x5120 = some (.ser 1 2) ∧ decode 0x9AB0 = some (.sner 0xA 0xB) ∧ decode 0xE49E = some (.skp 4) ∧
    decode 0xE4A1 = some (.sknp 4) := by decide

theorem test_decode_immediate : decode 0x6005 = some (.ld 0 5) ∧ decode 0x7003 = some (.add 0 3) ∧
    decode 0xC10F = some (.rnd 1 0x0F) ∧ decode 0xAFED = some (.ldi 0xFED) := by decide

theorem test_decode_group8 : decode 0x8120 = some (.ldr 1 2) ∧ decode 0x8121 = some (.or 1 2) ∧
    decode 0x8122 = some (.and 1 2) ∧ decode 0x8123 = some (.xor 1 2) ∧ decode 0x8124 = some (.addr 1 2) ∧
    decode 0x8125 = some (.sub 1 2) ∧ decode 0x8127 = some (.subn 1 2) := by decide

theorem test_decode_shifts_ignore_y : decode 0x8106 = some (.shr 1) ∧ decode 0x8126 = some (.shr 1) ∧
    decode 0x810E = some (.shl 1) ∧ decode 0x81FE = some (.shl 1) := by decide

theorem test_decode_draw : decode 0xD12F = some (.drw 1 2 0xF) ∧ decode 0xD010 = some (.drw 0 1 0) := by decide

theorem test_decode_groupF : decode 0xF207 = some (.lddt 2) ∧ decode 0xF10A = some (.ldkp 1) ∧
    decode 0xF115 = some (.lddtr 1) ∧ decode 0xF118 = some (.ldst 1) ∧ decode 0xF21E = some (.addi 2) ∧
    decode 0xF329 = some (.lds 3) ∧ decode 0xF133 = some (.ldbcd 1) ∧ decode 0xF255 = some (.ldir 2) ∧
    decode 0xFF65 = some (.ldri 0xF) := by decide

theorem test_table_word : decodeTableWord 16 0x8124 = some (.addr 1 2) ∧ decodeTableWord 16 0x0000 = none := by decide

/-! ### Control transfer (95_test_vectors.md 2.1) -/

/-- T1. -/
theorem test_jp : after (cycleOn State.reset 0x1ABC) (fun t => (t.pc, t.run)) = some (0xABC, .running) := by decide

/-- T4: the sixteenth CALL. -/
theorem test_call_last_entry : after (cycleOn { State.reset with sp := 15 } 0x2300)
    (fun t => (t.pc, t.sp, t.stack[15])) = some (0x300, 16, 0x202) := by decide

/-- T5. -/
theorem test_call_overflow : after (cycleOn { State.reset with sp := 16 } 0x2300) (fun t => (t.pc, t.sp, t.run)) =
    some (0x200, 16, haltedAt .stackOverflow 0x200 (some 0x2300) none) := by decide

/-- T8. -/
theorem test_ret : after (cycleOn { State.reset with sp := 16, stack := State.reset.stack.set 15 0xFFE } 0x00EE)
    (fun t => (t.pc, t.sp, t.stack[15])) = some (0xFFE, 15, 0xFFE) := by decide

/-- T7. -/
theorem test_ret_underflow : after (cycleOn State.reset 0x00EE) (fun t => (t.pc, t.sp, t.run)) =
    some (0x200, 0, haltedAt .stackUnderflow 0x200 (some 0x00EE) none) := by decide

/-- T9 and T10: not reduced. -/
theorem test_jpo : after (cycleOn (withRegs [(0, 0xFF)]) 0xBFFF) (fun t => (t.pc, t.run)) = some (0x10FE, .running) ∧
    after (cycleOn (withRegs [(0, 0xFF)]) 0xB300) (fun t => t.pc) = some 0x3FF := by decide

/-- T11, T12. -/
theorem test_se : after (cycleOn (withRegs [(0xA, 0x42)]) 0x3A42) (fun t => t.pc) = some 0x204 ∧
    after (cycleOn (withRegs [(0xA, 0x43)]) 0x3A42) (fun t => t.pc) = some 0x202 := by decide

/-- T13, T14. -/
theorem test_sne : after (cycleOn (withRegs [(0xA, 0x42)]) 0x4A42) (fun t => t.pc) = some 0x202 ∧
    after (cycleOn (withRegs [(0xA, 0x43)]) 0x4A42) (fun t => t.pc) = some 0x204 := by decide

/-- T15, T16. -/
theorem test_ser : after (cycleOn (withRegs [(1, 7), (2, 7)]) 0x5120) (fun t => t.pc) = some 0x204 ∧
    after (cycleOn (withRegs [(1, 7), (2, 8)]) 0x5120) (fun t => t.pc) = some 0x202 := by decide

/-- T18, T19. -/
theorem test_sner : after (cycleOn (withRegs [(1, 7), (2, 7)]) 0x9120) (fun t => t.pc) = some 0x202 ∧
    after (cycleOn (withRegs [(1, 7), (2, 8)]) 0x9120) (fun t => t.pc) = some 0x204 := by decide

/-- T23: a taken skip at the last instruction of memory. -/
theorem test_skip_past_memory : after (cycleOn { State.reset with pc := 0xFFE } 0x3000) (fun t => (t.pc, t.run)) =
    some (0x1002, .running) := by decide

/-- T20, T28. -/
theorem test_unknown : after (cycleOn (withRegs [(1, 7), (2, 7)]) 0x5121) (fun t => (t.pc, t.run)) =
      some (0x200, haltedAt .invalidOpcode 0x200 (some 0x5121) none) ∧
    after (cycleOn State.reset 0xFFFF) (fun t => t.run) =
      some (haltedAt .invalidOpcode 0x200 (some 0xFFFF) none) := by decide

/-- T24b and the second cycle of T22. -/
theorem test_fetch_past_memory : after (step { State.reset with pc := 0xFFF }) (fun t => (t.pc, t.run)) =
      some (0xFFF, haltedAt .memoryOutOfRange 0xFFF none (some 0x1000)) ∧
    after (step { State.reset with pc := 0x1000 }) (fun t => (t.pc, t.run)) =
      some (0x1000, haltedAt .memoryOutOfRange 0x1000 none (some 0x1000)) := by decide

/-- T25: what an empty memory does on its first cycle. -/
theorem test_reset_steps : after (step State.reset) (fun t => (t.pc, t.run)) =
    some (0x200, haltedAt .invalidOpcode 0x200 (some 0x0000) none) := by decide

/-- T29: no alignment. -/
theorem test_odd_pc : after (step { State.reset with pc := 0x201, mem := [(0x201, 0x60), (0x202, 0x05)] })
    (fun t => (t.reg 0, t.pc)) = some (0x05, 0x203) := by decide

/-- T30. -/
theorem test_cycle_when_halted : after (step halted) id = some halted := by decide

/-! ### Registers and ALU (95_test_vectors.md 2.2) -/

/-- A1 and part 3, P1. -/
theorem test_ld : after (cycleOn State.reset 0x6FAB) (fun t => (t.reg 15, t.pc)) = some (0xAB, 0x202) ∧
    after (cycleOn State.reset 0x6005) (fun t => (t.reg 0, t.pc)) = some (0x05, 0x202) := by decide

/-- A4, A5. -/
theorem test_add : after (cycleOn (withRegs [(0, 1)]) 0x70FF) (fun t => (t.reg 0, t.reg 15, t.pc)) =
      some (0x00, 0x00, 0x202) ∧
    after (cycleOn (withRegs [(15, 0xFF)]) 0x7F01) (fun t => t.reg 15) = some 0x00 := by decide

/-- A2. -/
theorem test_ldr : after (cycleOn (withRegs [(1, 0x01), (2, 0x77)]) 0x8120) (fun t => (t.reg 1, t.reg 2, t.pc)) =
    some (0x77, 0x77, 0x202) := by decide

/-- A7. -/
theorem test_or : after (cycleOn (withRegs [(1, 0xF0), (2, 0x0F), (15, 0x55)]) 0x8121)
    (fun t => (t.reg 1, t.reg 15, t.pc)) = some (0xFF, 0x55, 0x202) := by decide

/-- A8. -/
theorem test_and : after (cycleOn (withRegs [(1, 0xF0), (2, 0x3C), (15, 0x55)]) 0x8122)
    (fun t => (t.reg 1, t.reg 15, t.pc)) = some (0x30, 0x55, 0x202) := by decide

/-- A9. -/
theorem test_xor : after (cycleOn (withRegs [(1, 0xF0), (2, 0x3C), (15, 0x55)]) 0x8123)
    (fun t => (t.reg 1, t.reg 15, t.pc)) = some (0xCC, 0x55, 0x202) := by decide

/-- A11, A12. -/
theorem test_addr : after (cycleOn (withRegs [(1, 250), (2, 10)]) 0x8124) (fun t => (t.reg 1, t.reg 15)) =
      some (0x04, 1) ∧
    after (cycleOn (withRegs [(1, 200), (2, 55), (15, 1)]) 0x8124) (fun t => (t.reg 1, t.reg 15)) =
      some (0xFF, 0) := by decide

/-- A16, A17. -/
theorem test_addr_vf : after (cycleOn (withRegs [(15, 3), (1, 254)]) 0x8F14) (fun t => t.reg 15) = some 0x01 ∧
    after (cycleOn (withRegs [(15, 3), (1, 254)]) 0x81F4) (fun t => (t.reg 1, t.reg 15)) = some (0x01, 1) := by decide

/-- A19, A21. -/
theorem test_sub : after (cycleOn (withRegs [(1, 5), (2, 10)]) 0x8125) (fun t => (t.reg 1, t.reg 15)) =
      some (0xFB, 0) ∧
    after (cycleOn (withRegs [(1, 7), (2, 7)]) 0x8125) (fun t => (t.reg 1, t.reg 15)) = some (0x00, 1) := by decide

/-- A23, A24. -/
theorem test_sub_vf : after (cycleOn (withRegs [(15, 3), (1, 5)]) 0x8F15) (fun t => t.reg 15) = some 0xFE ∧
    after (cycleOn (withRegs [(15, 3), (1, 5)]) 0x81F5) (fun t => (t.reg 1, t.reg 15)) = some (0x02, 1) := by decide

/-- A27, A28. -/
theorem test_subn : after (cycleOn (withRegs [(1, 10), (2, 5)]) 0x8127) (fun t => (t.reg 1, t.reg 15)) =
      some (0xFB, 0) ∧
    after (cycleOn (withRegs [(1, 7), (2, 7)]) 0x8127) (fun t => (t.reg 1, t.reg 15)) = some (0x00, 1) := by decide

/-- A29, A30. -/
theorem test_subn_vf : after (cycleOn (withRegs [(15, 3), (1, 5)]) 0x8F17) (fun t => t.reg 15) = some 0x02 ∧
    after (cycleOn (withRegs [(15, 3), (1, 5)]) 0x81F7) (fun t => (t.reg 1, t.reg 15)) = some (0xFE, 0) := by decide

/-- A31, A33. -/
theorem test_shr : after (cycleOn (withRegs [(1, 0x81), (2, 0x55)]) 0x8126) (fun t => (t.reg 1, t.reg 2, t.reg 15)) =
      some (0x40, 0x55, 1) ∧
    after (cycleOn (withRegs [(15, 0x03)]) 0x8F06) (fun t => t.reg 15) = some 0x01 := by decide

/-- A35, A37. -/
theorem test_shl : after (cycleOn (withRegs [(1, 0x81), (2, 0x55)]) 0x812E) (fun t => (t.reg 1, t.reg 2, t.reg 15)) =
      some (0x02, 0x55, 1) ∧
    after (cycleOn (withRegs [(15, 0x81)]) 0x8F0E) (fun t => t.reg 15) = some 0x02 := by decide

/-- A39: the instruction takes the next sample, and what a sample of 0xA7 does. -/
theorem test_rnd : exec (.rnd 1 0x0F) State.reset = .next (State.reset.randomInto 1 0x0F (Config.rndByte 0)).sampled ∧
    (State.reset.randomInto 1 0x0F 0xA7).reg 1 = 0x07 := by
  exact ⟨rfl, by decide⟩

/-- A40. -/
theorem test_rnd_mask0 : ((withRegs [(1, 0x55)]).randomInto 1 0x00 0xFF).reg 1 = 0x00 := by decide

/-! ### I and memory transfers (95_test_vectors.md 2.3) -/

/-- M1. -/
theorem test_ldi : after (cycleOn State.reset 0xAFFF) (fun t => (t.i, t.pc)) = some (0xFFF, 0x202) := by decide

/-- M2, M5. -/
theorem test_addi : after (cycleOn { withRegs [(1, 1)] with i := 0xFFF } 0xF11E) (fun t => (t.i, t.reg 15, t.pc)) =
      some (0x000, 0, 0x202) ∧
    after (cycleOn { withRegs [(15, 0xFF)] with i := 0xFFF } 0xFF1E) (fun t => (t.i, t.reg 15)) =
      some (0x0FE, 0xFF) := by decide

/-- M7: low nibble only, for every FONT_BASE. -/
theorem test_lds : exec (.lds 1) (withRegs [(1, 0xFA)]) = .next
    { (withRegs [(1, 0xFA)]).advance with i := BitVec.ofNat 12 (Config.fontBase.val + 50) } := rfl

/-- M9, M13. -/
theorem test_ldbcd : after (cycleOn { withRegs [(1, 123)] with i := 0x300 } 0xF133)
      (fun t => (peek t.mem 0x300, peek t.mem 0x301, peek t.mem 0x302, t.i)) = some (1, 2, 3, 0x300) ∧
    after (cycleOn { withRegs [(1, 100)] with i := 0xFFD } 0xF133)
      (fun t => (peek t.mem 0xFFD, peek t.mem 0xFFE, peek t.mem 0xFFF, t.run)) = some (1, 0, 0, .running) := by decide

/-- M14. -/
theorem test_ldbcd_past_memory : after (cycleOn { withRegs [(1, 123)] with i := 0xFFE } 0xF133)
    (fun t => (peek t.mem 0xFFE, peek t.mem 0xFFF, t.pc, t.run)) =
      some (1, 2, 0x200, haltedAt .memoryOutOfRange 0x200 (some 0xF133) (some 0x1000)) := by decide

/-- M16. -/
theorem test_ldir : after (cycleOn { withRegs [(0, 0x11), (1, 0x22), (2, 0x33), (3, 0x44)] with i := 0x400 } 0xF255)
    (fun t => (peek t.mem 0x400, peek t.mem 0x401, peek t.mem 0x402, peek t.mem 0x403, t.i)) =
      some (0x11, 0x22, 0x33, 0x00, 0x400) := by decide

/-- M18. -/
theorem test_ldir_past_memory : after (cycleOn { withRegs [(0, 0x11), (1, 0x22), (2, 0x33)] with i := 0xFFE } 0xF255)
    (fun t => (peek t.mem 0xFFE, peek t.mem 0xFFF, t.pc, t.run)) =
      some (0x11, 0x22, 0x200, haltedAt .memoryOutOfRange 0x200 (some 0xF255) (some 0x1000)) := by decide

/-- M21. -/
theorem test_ldri : after (cycleOn
      { State.reset with i := 0x400, mem := [(0x400, 0xDE), (0x401, 0xAD), (0x402, 0xBE), (0x403, 0xEF)] } 0xF265)
    (fun t => (t.reg 0, t.reg 1, t.reg 2, t.reg 3, t.i)) = some (0xDE, 0xAD, 0xBE, 0x00, 0x400) := by decide

/-- M22. -/
theorem test_ldri_past_memory : after (cycleOn
      { withRegs [(2, 9)] with i := 0xFFE, mem := [(0xFFE, 0xDE), (0xFFF, 0xAD)] } 0xF265)
    (fun t => (t.reg 0, t.reg 1, t.reg 2, t.pc, t.run)) =
      some (0xDE, 0xAD, 9, 0x200, haltedAt .memoryOutOfRange 0x200 (some 0xF265) (some 0x1000)) := by decide

/-! ### Display (95_test_vectors.md 2.4) -/

/-- G1. -/
theorem test_cls : after (cycleOn { withRegs [(15, 1)] with fb := lit [(0, 0), (63, 31), (10, 10)] } 0x00E0)
    (fun t => (t.fb, t.reg 15, t.pc)) = some (clearScreen, 1, 0x202) := by decide

/-- G4: the source's wrap-around case. -/
theorem test_drw_wraps : after (cycleOn { withRegs [(0, 63)] with i := 0x300, mem := [(0x300, 0xFF)] } 0xD011)
    (fun t => (t.fb, t.reg 15, t.pc)) =
      some (lit [(63, 0), (0, 0), (1, 0), (2, 0), (3, 0), (4, 0), (5, 0), (6, 0)], 0, 0x202) := by decide

/-- G13: one cell set, one cleared. -/
theorem test_drw_collides : after (cycleOn
      { State.reset with i := 0x300, mem := [(0x300, 0xC0)], fb := lit [(1, 0)] } 0xD011)
    (fun t => (t.fb, t.reg 15)) = some (lit [(0, 0)], 1) := by decide

/-- G9: a read past memory draws nothing. -/
theorem test_drw_past_memory : after (cycleOn { withRegs [(15, 1)] with i := 0xFFF, mem := [(0xFFF, 0xFF)] } 0xD012)
    (fun t => (t.fb, t.reg 15, t.pc, t.run)) =
      some (clearScreen, 1, 0x200, haltedAt .memoryOutOfRange 0x200 (some 0xD012) (some 0x1000)) := by decide

/-- G7: no rows. -/
theorem test_drw_no_rows : after (cycleOn { withRegs [(15, 1)] with i := 0xFFF, fb := lit [(0, 0)] } 0xD010)
    (fun t => (t.fb, t.reg 15, t.run)) = some (lit [(0, 0)], 0, .running) := by decide

/-- X8 and R208. -/
theorem test_pixel_read : pixelRead State.reset 64 0 = .error .outOfRange ∧
    pixelRead State.reset (-1) 0 = .error .outOfRange ∧
    pixelRead { State.reset with fb := lit [(63, 31)] } 63 31 = .ok true := by
  refine ⟨rfl, rfl, rfl⟩

/-! ### Keypad, timers, events (95_test_vectors.md 2.5, 2.6) -/

/-- K1, K2, K5: the instruction takes the next sample; samples in which key 10 is down, or no key. -/
theorem test_skp : exec (.skp 4) State.reset = .next (State.reset.skipIfKey 4 (Config.keyDown 0)).sampled ∧
    ((withRegs [(4, 0x0A)]).skipIfKey 4 0x0400).pc = 0x204 ∧ ((withRegs [(4, 0x0A)]).skipIfKey 4 0).pc = 0x202 ∧
    ((withRegs [(4, 0x1A)]).skipIfKey 4 0x0400).pc = 0x202 := by
  exact ⟨rfl, by decide, by decide, by decide⟩

/-- K3, K4, K6. -/
theorem test_sknp : exec (.sknp 4) State.reset = .next (State.reset.skipIfNoKey 4 (Config.keyDown 0)).sampled ∧
    ((withRegs [(4, 0x0A)]).skipIfNoKey 4 0).pc = 0x204 ∧ ((withRegs [(4, 0x0A)]).skipIfNoKey 4 0x0400).pc = 0x202 ∧
    ((withRegs [(4, 0x1A)]).skipIfNoKey 4 0x0400).pc = 0x204 := by
  exact ⟨rfl, by decide, by decide, by decide⟩

/-- K8. -/
theorem test_ldkp : after (cycleOn State.reset 0xF10A) (fun t => (t.run, t.pc, t.reg 1)) =
    some (.waitingForKey 1, 0x200, 0) := by decide

/-- K10, K12. -/
theorem test_key_event : after (step { waiting with events := [.keyEvent 0xF] }) (fun t => (t.reg 1, t.pc, t.run)) =
      some (0x0F, 0x202, .running) ∧
    after (step { State.reset with events := [.keyEvent 5] }) id = some State.reset := by decide

/-- K14. -/
theorem test_lddt : after (cycleOn { State.reset with dt := 0x3C } 0xF207) (fun t => (t.reg 2, t.dt, t.pc)) =
    some (0x3C, 0x3C, 0x202) := by decide

/-- K15. -/
theorem test_lddtr : after (cycleOn (withRegs [(1, 7)]) 0xF115) (fun t => (t.dt, t.st, t.pc)) =
    some (7, 0, 0x202) := by decide

/-- K16. -/
theorem test_ldst : after (cycleOn (withRegs [(1, 0x1E)]) 0xF118) (fun t => (t.dt, t.st, t.pc)) =
    some (0, 30, 0x202) := by decide

/-- K18, K20. -/
theorem test_tick : after (step { State.reset with dt := 2, st := 1, events := [.tick] }) (fun t => (t.dt, t.st, t.pc)) =
      some (1, 0, 0x200) ∧
    after (step { State.reset with events := [.tick] }) id = some State.reset := by decide

/-- K21 and K22: a tick in the wait and after a halt. -/
theorem test_tick_in_wait_and_halt :
    after (step { waiting with dt := 5, events := [.tick] }) (fun t => (t.dt, t.run)) = some (4, .waitingForKey 1) ∧
    after (step { halted with events := [.tick] }) id = some halted := by decide

/-- X3, X5 as host_write. -/
theorem test_host_write : after (step { State.reset with events := [.hostWrite 0x300 0x1FF] }) (fun t => t.mem) =
      some [(0x300, 0xFF)] ∧
    after (step { State.reset with events := [.hostWrite 0x1000 1] }) id = some State.reset ∧
    stepRefusal { State.reset with events := [.hostWrite 0x1000 1] } = some .outOfRange ∧
    stepRefusal { State.reset with events := [.hostWrite 0x300 0x1FF] } = none := by decide

/-- X6, X7. -/
theorem test_reset_and_power_on :
    after (step { halted with pc := 0x456, sp := 2, mem := [(0x200, 0x60)], events := [.reset] })
      (fun t => (t.pc, t.sp, t.dt, t.run, peek t.mem 0x200)) = some (0x200, 0, 0, .running, 0x60) ∧
    after (step { halted with pc := 0x456, sp := 2, mem := [(0x200, 0x60)], events := [.powerOn] })
      (fun t => (t.pc, t.sp, t.dt, t.run, peek t.mem 0x200)) = some (0x200, 0, 0, .running, 0) := by decide

/-- The codes of R240 and the outputs of R42. -/
theorem test_codes_and_outputs : [HaltReason.invalidOpcode, .memoryOutOfRange, .stackOverflow, .stackUnderflow].map
      haltCode = [1, 2, 3, 4] ∧
    statusOut waiting = .waitingForKey 1 ∧ dtOut { halted with dt := 7 } = 7 ∧ stOut { halted with st := 9 } = 9 := by
  decide

/-- X1, X2, X4. -/
theorem test_word_access : memReadWord [(0xFFE, 0x12), (0xFFF, 0x34)] 0xFFE = .ok 0x1234 ∧
    memReadWord [(0xFFF, 0x34)] 0xFFF = .error 0x1000 ∧
    memWriteWord [] 0x300 0xBEEF = .ok [(0x300, 0xBE), (0x301, 0xEF)] := by
  refine ⟨rfl, rfl, rfl⟩

/-- Writing 0 removes the entry: the canonical form. -/
theorem test_poke_zero : poke [(0x300, 1), (0x301, 2)] 0x300 0 = [(0x301, 2)] ∧
    Memory.wf [(0x300, 0)] = false ∧ Memory.wf [(0x301, 1), (0x300, 1)] = false ∧ Memory.wf [(0x1000, 1)] = false := by
  decide

/-! ### Witnesses: states and operands that meet the hypotheses of each statement, at the boundaries of each clause -/

/-- A machine with the word 0xF10A (LDKP V1) at PC. -/
def atLdkp : State := { State.reset with mem := [(0x200, 0xF1), (0x201, 0x0A)] }

theorem test_witness_EncodeOfDecode : decode 0x8FFE = some (.shl 0xF) ∧ decode 0x8126 = some (.shr 1) ∧
    decode 0xD12F = some (.drw 1 2 0xF) := by decide

theorem test_witness_DecodeAgreesWithTable : decode 0x8124 = some (.addr 1 2) ∧
    (⟨"ADDR", 0xF00F, 0x8004⟩ : Row) ∈ opcodeTable ∧ (⟨"ADDR", 0xF00F, 0x8004⟩ : Row).selects 0x8124 = true ∧
    decode 0x812F = none ∧ recognised 0x812F = false := by decide

theorem test_witness_ByteReadChecksRange : memRead [(4095, 7)] 4095 = .ok 7 ∧ memRead [(4095, 7)] 4096 = .error 4096 :=
  ⟨rfl, rfl⟩

theorem test_witness_MixedWidthAccess : (4095 ≤ 4095 ∧ memWrite [] 4095 0xFF = .ok [(4095, 0xFF)]) ∧
    4094 ≤ 4094 ∧ memWriteWord [] 4094 0x1234 = .ok [(4094, 0x12), (4095, 0x34)] ∧
    memReadWord [(4094, 0x12), (4095, 0x34)] 4094 = .ok 0x1234 :=
  ⟨⟨by decide, rfl⟩, by decide, rfl, rfl⟩

theorem test_witness_WordAccessChecksBothBytes : 4094 < 4095 ∧ memReadWord [(4095, 1)] 4095 = .error 4096 ∧
    memWriteWord [] 4096 0x1234 = .error 4096 :=
  ⟨by decide, rfl, rfl⟩

theorem test_witness_StepRunsDecodedInstruction : atLdkp.run = .running ∧ memRead atLdkp.mem 0x200 = .ok 0xF1 ∧
    memRead atLdkp.mem 0x201 = .ok 0x0A ∧ decode (wordOfBytes 0xF1 0x0A) = some (.ldkp 1) ∧ atLdkp.events = [] ∧
    { atLdkp with events := [.cycle, .tick] }.events = .cycle :: [.tick] :=
  ⟨rfl, rfl, rfl, by decide, rfl, rfl⟩

theorem test_witness_PlacedInstructionRuns : { State.reset with pc := 0xFFE }.pc.toNat ≤ 0xFFE := by decide

theorem test_witness_UnknownWordHalts : State.reset.run = .running ∧ State.reset.events = [] ∧
    { State.reset with events := [.cycle, .tick] }.events = .cycle :: [.tick] ∧
    memRead State.reset.mem 0x200 = .ok 0 ∧ memRead State.reset.mem 0x201 = .ok 0 ∧ decode (wordOfBytes 0 0) = none :=
  ⟨rfl, rfl, rfl, rfl, rfl, by decide⟩

theorem test_witness_FetchBeyondMemoryHalts : 0xFFE < { State.reset with pc := 0xFFF }.pc.toNat ∧
    0xFFE < { State.reset with pc := 0x1000 }.pc.toNat ∧ State.reset.run = .running ∧ State.reset.events = [] ∧
    { State.reset with pc := 0xFFF, events := [.cycle, .tick] }.events = .cycle :: [.tick] := by decide

theorem test_witness_CycleOutsideRunningIsNoOp : waiting.run ≠ .running ∧ halted.run ≠ .running ∧
    waiting.events = [] ∧ halted.events = [] ∧ { waiting with events := [.cycle] }.events = .cycle :: [] := by decide

/-- A machine inside a subroutine, the RET next. -/
def inSubroutine : State :=
  { State.reset with
    pc := 0x300, sp := 1, stack := State.reset.stack.set 0 0x202, mem := [(0x301, 0xEE)], started := true }

theorem test_witness_StepKeepsInvariant : Invariant inSubroutine ∧
    after (step inSubroutine) (fun t => (t.pc, t.sp, t.run)) = some (0x202, 0, .running) :=
  ⟨⟨by decide, by decide, by decide, (by intro d h; cases h), by intro r h; cases h⟩, by decide⟩

theorem test_witness_invariant_waiting : Invariant waiting :=
  ⟨by decide, by decide, by decide, (by intro d _; exact ⟨by decide, rfl⟩), by intro r h; cases h⟩

theorem test_witness_invariant_halted : Invariant halted :=
  ⟨by decide, by decide, by decide, (by intro d h; cases h),
    by intro r h; cases h; exact ⟨⟨rfl, ⟨0xFFFF, rfl, by decide⟩, rfl⟩, rfl⟩⟩

theorem test_witness_PowerOnAndResetEvents :
    { halted with events := [.powerOn, .tick] }.events = .powerOn :: [.tick] ∧
    { waiting with events := [.reset] }.events = .reset :: [] :=
  ⟨rfl, rfl⟩

theorem test_witness_RunStateTransitions :
    (after (step atLdkp) (fun t => t.run) = some (.waitingForKey 1) ∧ (takeEvent atLdkp).1 = .cycle ∧
      atLdkp.fetch = .ok 0xF10A ∧ decode 0xF10A = some (.ldkp 1)) ∧
    (takeEvent { halted with events := [.reset] }).1 = .reset ∧
    after (step { halted with events := [.reset] }) (fun t => t.run) = some .running ∧
    (takeEvent { waiting with events := [.keyEvent 3] }).1 = .keyEvent 3 ∧ waiting.run = .waitingForKey 1 :=
  ⟨⟨by decide, rfl, rfl, by decide⟩, rfl, by decide, rfl, rfl⟩

theorem test_witness_HaltedIsTerminal : halted.run = haltedAt .invalidOpcode 0x200 (some 0xFFFF) none ∧
    halted.started = true ∧ after (step { halted with events := [.keyEvent 1] }) id = some halted ∧
    (takeEvent { halted with events := [.keyEvent 1] }).1 = .keyEvent 1 := by decide

theorem test_witness_OnlySixInstructionsHalt :
    after (exec .ret State.reset) (fun t => decide (t.run ≠ State.reset.run)) = some true ∧
    after (exec (.ldkp 3) State.reset) (fun t => decide (t.run ≠ State.reset.run)) = some true := by decide

theorem test_witness_OnlyNamedRegistersWritten : exec (.ld 1 5) State.reset = .next (State.reset.setReg 1 5).advance ∧
    (2 : Reg) ∉ writesRegs (.ld 1 5) ∧ (0 : Reg) ∉ writesRegs (.ld 1 5) :=
  ⟨rfl, by decide, by decide⟩

theorem test_witness_OnlyNamedPartsWritten : exec (.ldst 1) State.reset = .next State.reset.advance ∧
    exec .cls State.reset = .next State.reset.advance :=
  ⟨rfl, rfl⟩

theorem test_witness_ProgramCounterMoves :
    after (exec (.jpo 0xFFF) (withRegs [(0, 0xFF)])) (fun t => t.pc) = some 0x10FE ∧
    after (exec (.call 0x300) { State.reset with sp := 16 }) (fun t => t.pc) = some 0x200 ∧
    after (exec .ret inSubroutine) (fun t => t.pc) = some 0x202 := by decide

theorem test_witness_flags : (1 : Reg) ≠ 15 ∧
    after (exec (.addr 1 2) (withRegs [(1, 255)])) (fun t => (t.reg 1, t.reg 15)) = some (255, 0) ∧
    after (exec (.addr 1 2) (withRegs [(1, 255), (2, 1)])) (fun t => (t.reg 1, t.reg 15)) = some (0, 1) := by decide

theorem test_witness_CompareSkips : (withRegs [(3, 0x2A)]).reg 3 = 0x2A ∧ (withRegs [(3, 0x2A)]).reg 3 ≠ 0x2B ∧
    State.reset.reg 1 = State.reset.reg 2 ∧ (withRegs [(3, 0x2A)]).reg 3 ≠ (withRegs [(3, 0x2A)]).reg 4 := by decide

theorem test_witness_CallPushesReturnAddress : { State.reset with sp := 15 }.sp.val < 16 ∧ State.reset.sp.val < 16 := by
  decide

theorem test_witness_RetPopsReturnAddress : { State.reset with sp := 16 }.sp.val = (15 : Fin 16).val + 1 ∧
    inSubroutine.sp.val = (0 : Fin 16).val + 1 := by decide

theorem test_witness_StackErrorsHalt : { State.reset with sp := 16 }.sp.val = 16 ∧ State.reset.sp.val = 0 := by decide

/-- A state that still holds the CALL's entry although the subroutine has called and returned since. -/
theorem test_witness_RetReturnsBehindCall : State.reset.sp.val = (0 : Fin 16).val ∧
    exec (.call 0x300) State.reset =
      .next { State.reset with pc := 0x300, sp := 1, stack := State.reset.stack.set 0 0x202 } ∧
    { inSubroutine with stack := inSubroutine.stack.set 1 0x304 }.sp = 1 ∧
    (inSubroutine.stack.set 1 0x304)[0] = (State.reset.stack.set 0 0x202)[0] ∧
    (inSubroutine.stack.set 1 0x304)[1] ≠ (State.reset.stack.set 0 0x202)[1] :=
  ⟨rfl, rfl, rfl, by decide, by decide⟩

theorem test_witness_transfers_fit : { State.reset with i := 0xFFD }.base + 2 ≤ 4095 ∧
    { State.reset with i := 0xFF0 }.base + (15 : Reg).toNat ≤ 4095 ∧
    { State.reset with i := 0xFFF }.base + (0 : Reg).toNat ≤ 4095 := by decide

theorem test_witness_StoresPastMemoryHalt : 4095 < { State.reset with i := 0xFFE }.base + 2 ∧
    { State.reset with i := 0xFFE }.base = 0xFFE ∧ 4095 < { State.reset with i := 0xFFF }.base + 2 ∧
    4095 < { State.reset with i := 0xFF1 }.base + (15 : Reg).toNat ∧
    { State.reset with i := 0xFF1 }.base + (14 : Reg).toNat ≤ 4095 := by decide

theorem test_witness_LoadsPastMemoryHalt : 4095 < { State.reset with i := 0xFFF }.base + (1 : Reg).toNat ∧
    4096 < { State.reset with i := 0xFF2 }.base + (15 : BitVec 4).toNat ∧ (15 : BitVec 4) ≠ 0 := by decide

theorem test_witness_StoredRegistersLoadBack :
    exec (.ldir 0) { withRegs [(0, 0xAB)] with i := 0xFFF } =
      .next { withRegs [(0, 0xAB)] with i := 0xFFF, pc := 0x202, mem := [(0xFFF, 0xAB)] } ∧
    { State.reset with i := 0xFFF, mem := [(0xFFF, 0xAB)] }.i = 0xFFF ∧
    memRead { State.reset with i := 0xFFF, mem := [(0xFFF, 0xAB)] }.mem 0xFFF = .ok 0xAB :=
  ⟨rfl, rfl, rfl⟩

theorem test_witness_DrwFlipsSpriteCells : { State.reset with i := 0xFF1 }.base + (15 : BitVec 4).toNat ≤ 4096 ∧
    pixel (lit [(0, 0)]) 0 0 = true ∧ SpriteSets [(0x300, 0x80)] 0x300 1 0 0 0 0 ∧
    ¬ ∃ dx dy, pixel clearScreen dx dy = true ∧ SpriteSets [(0x300, 0x80)] 0x300 1 0 0 dx dy :=
  ⟨by decide, by decide, ⟨0, 0, by decide, by decide, rfl, rfl, rfl⟩,
    fun ⟨dx, dy, h, _⟩ => by simp [pixel, clearScreen] at h⟩

theorem test_witness_DrawingTwiceRestores : (List.replicate 15 (0xFF : Byte)).length ≤ 15 := by decide

theorem test_witness_PixelReadChecksBounds : (63 : Int) = ((63 : Fin 64).val : Int) ∧ (31 : Int) = ((31 : Fin 32).val : Int) ∧
    pixelRead State.reset 63 31 = .ok false ∧ pixelRead State.reset 0 32 = .error .outOfRange ∧
    pixelRead State.reset 64 0 = .error .outOfRange ∧ pixelRead State.reset 0 (-1) = .error .outOfRange := by
  refine ⟨rfl, rfl, rfl, rfl, rfl, rfl⟩

theorem test_witness_KeyEventEndsWait : { waiting with events := [.keyEvent 0xF] }.events = .keyEvent 0xF :: [] ∧
    waiting.run = .waitingForKey 1 ∧ (∀ d, State.reset.run ≠ .waitingForKey d) ∧ ∀ d, halted.run ≠ .waitingForKey d :=
  ⟨rfl, rfl, fun d h => (by cases h), fun d h => (by cases h)⟩

theorem test_witness_TickCountsDown : { State.reset with events := [.tick] }.events = .tick :: [] ∧
    (∀ r, State.reset.run ≠ .halted r) ∧ (∀ r, waiting.run ≠ .halted r) ∧
    halted.run = .halted ⟨.invalidOpcode, 0x200, some 0xFFFF, none⟩ :=
  ⟨rfl, fun r h => (by cases h), fun r h => (by cases h), rfl⟩

theorem test_witness_HostWriteBeforeStart :
    { State.reset with events := [.hostWrite 0 1, .cycle] }.events = .hostWrite 0 1 :: [.cycle] ∧
    State.reset.started = false ∧ halted.started = true ∧
    after (step { State.reset with events := [.hostWrite 4095 (-1)] }) (fun t => t.mem) = some [(4095, 0xFF)] ∧
    after (step { State.reset with events := [.hostWrite 0 1] }) (fun t => t.mem) = some [(0, 1)] ∧
    after (step { State.reset with events := [.hostWrite (-1) 1] }) (fun t => t.mem) = some [] ∧
    after (step { State.reset with events := [.hostWrite 4096 1] }) (fun t => t.mem) = some [] ∧
    step { halted with events := [.hostWrite 0 1] } = .fault .hostWriteAfterStart :=
  ⟨rfl, rfl, rfl, by decide, by decide, by decide, by decide, rfl⟩

end Sys2Proof.Tests
end

section
/-! PROOF. The run state (10_state.md section 7, R31, R44): its value after `power_on`, and its transitions. First what
one instruction can do to it, then one cycle, then one event; a step is an event on a state with the same run state. -/

namespace Sys2Proof.Machine

/-! ### One instruction -/

/-- What the instruction `i`, run on `s`, may do to the run state of its next state `t` (R31; 60_exceptions.md R240,
R247): keep it, wait for a key (LDKP alone), or halt with a record of its own address and word. -/
inductive RunEffect (i : Instr) (s t : State) : Prop where
  | kept (hrun : t.run = s.run)
  | waits (x : Reg) (hi : i = .ldkp x) (hrun : t.run = .waitingForKey x)
  | halts (reason : HaltReason) (addr : Option Nat) (hi : mayHalt i = true) (hpc : t.pc = s.pc)
      (hrun : t.run = .halted ⟨reason, s.pc, some (encode i), addr⟩) (hreason : reason ≠ .invalidOpcode)

/-- Every instruction answers a next state, with one of the three effects on the run state. -/
theorem exec_runEffect (i : Instr) (s : State) : ∃ t, exec i s = .next t ∧ RunEffect i s t := by
  cases i with
  | ldkp x => exact ⟨_, rfl, .waits x rfl rfl⟩
  | ret =>
    obtain ⟨k, -, h⟩ | ⟨-, h⟩ := execRet_cases s
    · exact ⟨_, h, .kept rfl⟩
    · exact ⟨_, h, .halts .stackUnderflow none rfl rfl rfl (by decide)⟩
  | call nnn =>
    obtain ⟨_, h⟩ | ⟨-, h⟩ := execCall_cases nnn s
    · exact ⟨_, h, .kept rfl⟩
    · exact ⟨_, h, .halts .stackOverflow none rfl rfl rfl (by decide)⟩
  | drw x y n =>
    obtain ⟨-, h⟩ | ⟨-, -, h⟩ := execDrw_cases x y n s
    · exact ⟨_, h, .kept rfl⟩
    · exact ⟨_, h, .halts .memoryOutOfRange _ rfl rfl rfl (by decide)⟩
  | ldbcd x =>
    obtain ⟨-, h⟩ | ⟨-, h⟩ := execLdbcd_cases x s
    · exact ⟨_, h, .kept rfl⟩
    · exact ⟨_, h, .halts .memoryOutOfRange _ rfl rfl rfl (by decide)⟩
  | ldir x =>
    obtain ⟨-, h⟩ | ⟨-, h⟩ := execLdir_cases x s
    · exact ⟨_, h, .kept rfl⟩
    · exact ⟨_, h, .halts .memoryOutOfRange _ rfl rfl rfl (by decide)⟩
  | ldri x =>
    obtain ⟨-, h⟩ | ⟨-, h⟩ := execLdri_cases x s
    · exact ⟨_, h, .kept rfl⟩
    · exact ⟨_, h, .halts .memoryOutOfRange _ rfl rfl rfl (by decide)⟩
  | _ => exact ⟨_, rfl, .kept rfl⟩

/-! ### One cycle -/

/-- The fetch looks at memory and PC alone, so not at `started`. -/
@[simp] theorem State.fetch_start (s : State) : s.start.fetch = s.fetch := rfl

/-- A cycle in Running on a fetched instruction runs it (R122). -/
theorem cycle_of_fetched {s : State} {w : Word} {i : Instr} (hrun : s.run = .running) (hf : s.fetch = .ok w)
    (hd : decode w = some i) : cycle s = exec i s.start := by
  rw [cycle_of_running s hrun]
  simp [cycleRunning, hf, hd]

/-- A cycle that changes the run state began in Running, and it either executed LDKP or halted (R31). -/
theorem cycle_run_changes {s t : State} (h : cycle s = .next t) (hne : t.run ≠ s.run) :
    s.run = .running ∧
      ((∃ x w, s.fetch = .ok w ∧ decode w = some (.ldkp x) ∧ t.run = .waitingForKey x) ∨ ∃ r, t.run = .halted r) := by
  by_cases hrun : s.run = .running
  · refine ⟨hrun, ?_⟩
    rw [cycle_of_running s hrun] at h
    obtain ⟨-, hc⟩ | ⟨-, w, -, -, hc⟩ | ⟨-, w, i, hf, hd, hc⟩ := cycleRunning_cases s.start
    · obtain rfl : _ = t := by simpa [hc] using h
      exact .inr ⟨_, rfl⟩
    · obtain rfl : _ = t := by simpa [hc] using h
      exact .inr ⟨_, rfl⟩
    · obtain ⟨u, hu, heff⟩ := exec_runEffect i s.start
      obtain rfl : u = t := by simpa [hc, hu] using h
      cases heff with
      | kept hkept => exact absurd hkept hne
      | waits x hi hwait => exact .inl ⟨x, w, hf, hi ▸ hd, hwait⟩
      | halts reason addr hi hpc hhalt hreason => exact .inr ⟨_, hhalt⟩
  · obtain rfl : s = t := by simpa [cycle_of_not_running s hrun] using h
    exact absurd rfl hne

/-! ### One event -/

/-- A tick leaves the run state alone (44_keypad_and_timers.md R231). -/
@[simp] theorem State.tick_run (s : State) : s.tick.run = s.run := by
  unfold State.tick
  split <;> rfl

/-- A key event ends a wait (R224). -/
theorem State.keyEvent_run_of_waiting {s : State} {d : Reg} (k : BitVec 4) (h : s.run = .waitingForKey d) :
    (s.keyEvent k).run = .running := by
  simp [State.keyEvent, h]

/-- A key event outside the wait is dropped (R224). -/
theorem State.keyEvent_of_not_waiting {s : State} (k : BitVec 4) (h : ∀ d, s.run ≠ .waitingForKey d) :
    s.keyEvent k = s := by
  unfold State.keyEvent
  split
  · next d hd => exact absurd hd (h d)
  · rfl
  · rfl

/-- A write of the host that is carried out changes Memory alone (R41). -/
theorem State.hostWrite_next {s t : State} {addr v : Int} (h : s.hostWrite addr v = .next t) :
    t = { s with mem := hostPoke s.mem addr v } := by
  unfold State.hostWrite at h
  split at h
  · cases h
  · simpa using h.symm

/-- The events that change the run state, and how (R31). -/
theorem event_run_changes {e : Event} {s t : State} (h : event e s = .next t) (hne : t.run ≠ s.run) :
    (e = .powerOn ∨ e = .reset) ∨
    (s.run = .running ∧ e = .cycle ∧
      ((∃ x w, s.fetch = .ok w ∧ decode w = some (.ldkp x) ∧ t.run = .waitingForKey x) ∨ ∃ r, t.run = .halted r)) ∨
    (∃ d k, s.run = .waitingForKey d ∧ e = .keyEvent k ∧ t.run = .running) := by
  cases e with
  | powerOn => exact .inl (.inl rfl)
  | reset => exact .inl (.inr rfl)
  | cycle =>
    obtain ⟨hrun, hto⟩ := cycle_run_changes h hne
    exact .inr (.inl ⟨hrun, rfl, hto⟩)
  | tick =>
    obtain rfl : s.tick = t := by simpa [event] using h
    exact absurd s.tick_run hne
  | keyEvent k =>
    obtain rfl : s.keyEvent k = t := by simpa [event] using h
    by_cases hw : ∃ d, s.run = .waitingForKey d
    · obtain ⟨d, hd⟩ := hw
      exact .inr (.inr ⟨d, k, hd, rfl, State.keyEvent_run_of_waiting k hd⟩)
    · exact absurd (congrArg State.run (State.keyEvent_of_not_waiting k (not_exists.1 hw))) hne
  | hostWrite addr v =>
    obtain rfl := State.hostWrite_next h
    exact absurd rfl hne

/-! ### One step -/

/-- Taking the next choice leaves the run state alone. -/
@[simp] theorem takeEvent_run (s : State) : (takeEvent s).2.run = s.run := by
  unfold takeEvent
  split <;> rfl

/-- Taking the next choice leaves what the fetch gives alone. -/
@[simp] theorem takeEvent_fetch (s : State) : (takeEvent s).2.fetch = s.fetch := by
  unfold takeEvent
  split <;> rfl

/-- A step that takes power_on or reset ends in Running (R31). -/
theorem step_run_of_powerOn_or_reset {s t : State} (h : step s = .next t)
    (he : (takeEvent s).1 = .powerOn ∨ (takeEvent s).1 = .reset) : t.run = .running := by
  obtain he | he := he
  · obtain rfl : (takeEvent s).2.powerOn = t := by simpa [step, he, event] using h
    rfl
  · obtain rfl : (takeEvent s).2.resetEvent = t := by simpa [step, he, event] using h
    rfl

/-- A step whose cycle executes LDKP Vx waits for the key of Vx (R31, R223). -/
theorem step_run_of_ldkp {s : State} {x : Reg} {w : Word} (hrun : s.run = .running) (he : (takeEvent s).1 = .cycle)
    (hf : s.fetch = .ok w) (hd : decode w = some (.ldkp x)) : ∃ t, step s = .next t ∧ t.run = .waitingForKey x := by
  have hc : cycle (takeEvent s).2 = exec (.ldkp x) (takeEvent s).2.start :=
    cycle_of_fetched (by rw [takeEvent_run, hrun]) (by rw [takeEvent_fetch, hf]) hd
  exact ⟨{ (takeEvent s).2.start with run := .waitingForKey x }, by rw [step, he]; exact hc, rfl⟩

/-- A step that takes a key event in the wait ends in Running (R31, R224). -/
theorem step_run_of_keyEvent {s : State} {d : Reg} {k : BitVec 4} (hrun : s.run = .waitingForKey d)
    (he : (takeEvent s).1 = .keyEvent k) : ∃ t, step s = .next t ∧ t.run = .running :=
  ⟨(takeEvent s).2.keyEvent k, by rw [step, he]; rfl,
    State.keyEvent_run_of_waiting k (by rw [takeEvent_run, hrun])⟩

/-- Settles O18: each clause is the lemma of its transition; that there is no other is `event_run_changes`, read on the
state left when the choice has been taken. -/
theorem runStateTransitions : Obligations.RunStateTransitions := by
  unfold Obligations.RunStateTransitions
  refine ⟨⟨rfl, rfl⟩, fun s t => step_run_of_powerOn_or_reset, fun s t h hne => ?_,
    fun s x w => step_run_of_ldkp, fun s d k => step_run_of_keyEvent⟩
  simpa using event_run_changes h (by simpa using hne)

/-! ### The state after power_on -/

/-- Every register is 0 right after power_on (R44). -/
@[simp] theorem State.reg_reset (x : Reg) : State.reset.reg x = 0 := by
  simp [State.reg, State.reset]

/-- Every cell is clear right after power_on (R44). -/
@[simp] theorem pixel_reset (x : Fin 64) (y : Fin 32) : pixel State.reset.fb x y = false :=
  pixel_clearScreen x y

/-- Every byte of memory is 0 right after power_on (R44). -/
theorem memRead_reset {a : Nat} (h : a ≤ 4095) : memRead State.reset.mem a = .ok 0 :=
  memRead_valid State.reset.mem (Nat.lt_succ_of_le h)

/-- Settles O16: registers, memory and cells by the lemmas above, the scalar fields by what `State.reset` sets. -/
theorem resetValues : Obligations.ResetValues := by
  unfold Obligations.ResetValues
  exact ⟨State.reg_reset, rfl, rfl, rfl, rfl, rfl, rfl, fun _ => memRead_reset, pixel_reset⟩

end Sys2Proof.Machine
end

section
/-! PROOF. The byte and word accesses of Memory (20_memory.md R60 to R65). First what each access answers in range and
out of range, then the two halves of a word as numbers, then what a read sees after a write. -/

namespace Sys2Proof.Machine

/-! ### The range check -/

/-- A byte write in range (R62). -/
theorem memWrite_valid (m : List Host.Cell) {a : Nat} (b : Byte) (h : a ≤ 4095) : memWrite m a b = .ok (poke m a b) := by
  simp [memWrite, validAddr, Nat.lt_succ_of_le h]

/-- A word access is in range when both of its bytes are (R63, R64). -/
theorem validAddr_pair {a : Nat} (h : a ≤ 4094) : validAddr a = true ∧ validAddr (a + 1) = true := by
  simp only [validAddr, decide_eq_true_eq]
  omega

/-- A word read in range gives the word of its two bytes (R63). -/
theorem memReadWord_valid (m : List Host.Cell) {a : Nat} (h : a ≤ 4094) :
    memReadWord m a = .ok (wordOfBytes (peek m a) (peek m (a + 1))) := by
  obtain ⟨hhi, hlo⟩ := validAddr_pair h
  simp only [memReadWord, hhi, hlo, if_true]

/-- A word write in range stores the high byte, then the low byte (R64). -/
theorem memWriteWord_valid (m : List Host.Cell) {a : Nat} (w : Word) (h : a ≤ 4094) :
    memWriteWord m a w = .ok (poke (poke m a (highByte w)) (a + 1) (lowByte w)) := by
  obtain ⟨hhi, hlo⟩ := validAddr_pair h
  simp only [memWriteWord, hhi, hlo, if_true]

/-- How the range check of a word access past 4094 fails: at its second byte, or already at its first (R60). -/
theorem past_word_range_cases {a : Nat} (h : 4094 < a) : a = 4095 ∨ validAddr a = false ∧ max a 4096 = a := by
  simp only [validAddr, decide_eq_false_iff_not]
  omega

/-- A word read past 4094 gives the first address out of range (R60, R63). -/
theorem memReadWord_invalid (m : List Host.Cell) {a : Nat} (h : 4094 < a) :
    memReadWord m a = .error (max a 4096) := by
  obtain rfl | ⟨hbad, hmax⟩ := past_word_range_cases h
  · rfl
  · rw [hmax]
    simp [memReadWord, hbad]

/-- A word write past 4094 gives the first address out of range, and no memory (R60, R64). -/
theorem memWriteWord_invalid (m : List Host.Cell) {a : Nat} (w : Word) (h : 4094 < a) :
    memWriteWord m a w = .error (max a 4096) := by
  obtain rfl | ⟨hbad, hmax⟩ := past_word_range_cases h
  · rfl
  · rw [hmax]
    simp [memWriteWord, hbad]

/-! ### The halves of a word as numbers -/

/-- The high byte is bits 15 to 8 (R64). -/
theorem highByte_toNat (w : Word) : (highByte w).toNat = w.toNat / 256 % 256 := by
  simp [highByte, Nat.shiftRight_eq_div_pow]

/-- The low byte is bits 7 to 0 (R64). -/
theorem lowByte_toNat (w : Word) : (lowByte w).toNat = w.toNat % 256 := by
  simp [lowByte]

/-- The high byte is worth 256 times the low one (R63): the two bytes are the halves of the word they make. -/
theorem wordOfBytes_toNat (hi lo : Byte) : (wordOfBytes hi lo).toNat = hi.toNat * 256 + lo.toNat := by
  have hhi := highByte_toNat (wordOfBytes hi lo)
  have hlo := lowByte_toNat (wordOfBytes hi lo)
  rw [highByte_wordOfBytes] at hhi
  rw [lowByte_wordOfBytes] at hlo
  have hword := (wordOfBytes hi lo).isLt
  omega

/-! ### A read after a write -/

/-- After a byte write its own address reads the byte (R65). -/
theorem memRead_poke_same (m : List Host.Cell) {a : Nat} (b : Byte) (h : a ≤ 4095) :
    memRead (poke m a b) a = .ok b := by
  rw [memRead_valid _ (Nat.lt_succ_of_le h), peek_poke_same]

/-- After a byte write every other address reads as before (R62). -/
theorem memRead_poke_ne (m : List Host.Cell) {a c : Nat} (b : Byte) (h : c ≠ a) :
    memRead (poke m a b) c = memRead m c :=
  memRead_congr (peek_poke_ne m b h)

/-- A word read after a word write at the same address (R65). -/
theorem memReadWord_poke_poke (m : List Host.Cell) {a : Nat} (w : Word) (h : a ≤ 4094) :
    memReadWord (poke (poke m a (highByte w)) (a + 1) (lowByte w)) a = .ok w := by
  rw [memReadWord_valid _ h, peek_poke_same, peek_poke_ne _ _ (Nat.ne_of_lt a.lt_succ_self), peek_poke_same,
    wordOfBytes_split]

/-! ### The obligations -/

/-- Settles O5, by the law of a byte read on each side of 4095. -/
theorem byteReadChecksRange : Obligations.ByteReadChecksRange := by
  unfold Obligations.ByteReadChecksRange
  exact fun m a => ⟨fun h => memRead_valid m (Nat.lt_succ_of_le h), fun h => memRead_invalid m (Nat.not_lt.2 h)⟩

/-- Settles O6: a write in range is one or two byte stores, and the two bytes of a word are its halves. -/
theorem mixedWidthAccess : Obligations.MixedWidthAccess := by
  unfold Obligations.MixedWidthAccess
  refine fun m a v => ⟨fun h => ?byteWrite, fun h => ?wordWrite, fun h => ?wordRead⟩
  case byteWrite =>
    exact ⟨_, memWrite_valid m _ h, ⟨_, memRead_poke_same m _ h, BitVec.toNat_ofNat v 8⟩,
      fun c hc => memRead_poke_ne m _ hc⟩
  case wordWrite =>
    have hv : (BitVec.ofNat 16 v).toNat = v % 65536 := BitVec.toNat_ofNat v 16
    refine ⟨_, memWriteWord_valid m _ h, ⟨_, memReadWord_poke_poke m _ h, hv⟩,
      ⟨highByte (BitVec.ofNat 16 v), ?_, ?_⟩, ⟨_, memRead_poke_same _ _ (Nat.succ_le_succ h), ?_⟩, fun c ha hb => ?_⟩
    · rw [memRead_poke_ne _ _ (Nat.ne_of_lt a.lt_succ_self), memRead_poke_same m _ (Nat.le_succ_of_le h)]
    · rw [highByte_toNat, hv]
      omega
    · rw [lowByte_toNat, hv]
      omega
    · rw [memRead_poke_ne _ _ hb, memRead_poke_ne m _ ha]
  case wordRead =>
    exact ⟨_, _, _, memRead_valid m (by omega), memRead_valid m (by omega), memReadWord_valid m h,
      wordOfBytes_toNat _ _⟩

/-- Settles O7, by the failing cases of the two word accesses. -/
theorem wordAccessChecksBothBytes : Obligations.WordAccessChecksBothBytes := by
  unfold Obligations.WordAccessChecksBothBytes
  exact fun m a w h => ⟨memReadWord_invalid m h, memWriteWord_invalid m w h⟩

end Sys2Proof.Machine
end

section
/-! PROOF. The decoder against the encoder and against the opcode table (30_encoding.md R91 to R102). First the
decoder on an encoded word; then what a decoded word looks like, one lemma per group; then which bits of a word
settle its kind. `split` numbers the decoder's groups from 1, so the case `h_9` of `decode` is the group of op 8. -/

namespace Sys2Proof

variable {w v m : Word} {i : Instr} {r : Row}

/-! ### Decoding an encoded word -/

/-- The decoder gives back every instruction, group by group of R96 to R100. -/
theorem decode_encode (i : Instr) : decode (encode i) = some i := by
  cases i with
  | cls | ret => rfl
  | jp | call | ldi | jpo | se | sne | ld | add | rnd | drw | ser | sner => simp [encode, decode]
  | ldr | or | and | xor | addr | sub | shr | subn | shl => simp [encode, decode, decodeGroup8]
  | skp | sknp => simp [encode, decode, decodeGroupE]
  | lddt | ldkp | lddtr | ldst | addi | lds | ldbcd | ldir | ldri => simp [encode, decode, decodeGroupF]

/-! ### Encoding a decoded word -/

/-- A word of op `op` is that op with the word's own fields, in the format FNNN (R91). -/
theorem wordFNNN_of_op {op : BitVec 4} (hop : (opField w).toNat = op.toNat) : wordFNNN op (nnnField w) = w := by
  rw [← BitVec.eq_of_toNat_eq hop, wordFNNN_fields]

/-- The same in the format FXKK, whose kk may be a selector (R91). -/
theorem wordFXKK_of_op {op : BitVec 4} {kk : Byte} (hop : (opField w).toNat = op.toNat)
    (hkk : (kkField w).toNat = kk.toNat) : wordFXKK op (xField w) kk = w := by
  rw [← BitVec.eq_of_toNat_eq hop, ← BitVec.eq_of_toNat_eq hkk, wordFXKK_fields]

/-- The same in the format FXYN, whose n may be a selector (R91). -/
theorem wordFXYN_of_op {op n : BitVec 4} (hop : (opField w).toNat = op.toNat)
    (hn : (nField w).toNat = n.toNat) : wordFXYN op (xField w) (yField w) n = w := by
  rw [← BitVec.eq_of_toNat_eq hop, ← BitVec.eq_of_toNat_eq hn, wordFXYN_fields]

/-- The instructions whose word has a field that is no operand: y of SHR and SHL (41_alu.md R161, R162). -/
def Instr.ignoresY : Instr → Bool
  | .shr _ | .shl _ => true
  | _ => false

theorem Instr.ignoresY_iff (i : Instr) : i.ignoresY = true ↔ i.mnemonic = "SHR" ∨ i.mnemonic = "SHL" := by
  cases i <;> simp [Instr.ignoresY, Instr.mnemonic]

/-- The word the encoder writes for the instruction `i` of the word `w` (R92, R104). -/
def canonicalWord (i : Instr) (w : Word) : Word := bif i.ignoresY then w &&& 0xFF0F else w

/-! What each group with a selector decodes (R97 to R100) is encoded back to the word. -/

theorem encode_of_decodeGroup0 (h : decodeGroup0 w = some i) : encode i = canonicalWord i w := by
  unfold decodeGroup0 at h
  split_ifs at h with hcls hret
  · obtain rfl : Instr.cls = i := by simpa using h
    exact hcls.symm
  · obtain rfl : Instr.ret = i := by simpa using h
    exact hret.symm

/-- The encoder's word for SHR or SHL read from `w`: `w` with its field y cleared (R104). -/
theorem wordFXYN_clear_y_of_op {op n : BitVec 4} (hop : (opField w).toNat = op.toNat)
    (hn : (nField w).toNat = n.toNat) : wordFXYN op (xField w) 0 n = w &&& 0xFF0F := by
  rw [← clear_y_wordFXYN op (xField w) (yField w) n, wordFXYN_of_op hop hn]

/-- Group 8; the cases 7 and 9 are SHR and SHL, whose field y is cleared. -/
theorem encode_of_decodeGroup8 (hop : (opField w).toNat = 0x8) (h : decodeGroup8 w = some i) :
    encode i = canonicalWord i w := by
  unfold decodeGroup8 at h
  split at h <;> cases h
  case h_7 hn | h_9 hn => exact wordFXYN_clear_y_of_op hop hn
  all_goals
    next hn => exact wordFXYN_of_op hop hn

theorem encode_of_decodeGroupE (hop : (opField w).toNat = 0xE) (h : decodeGroupE w = some i) :
    encode i = canonicalWord i w := by
  unfold decodeGroupE at h
  split at h <;> cases h
  all_goals
    next hkk => exact wordFXKK_of_op hop hkk

theorem encode_of_decodeGroupF (hop : (opField w).toNat = 0xF) (h : decodeGroupF w = some i) :
    encode i = canonicalWord i w := by
  unfold decodeGroupF at h
  split at h <;> cases h
  all_goals
    next hkk => exact wordFXKK_of_op hop hkk

/-- A decoded word is the word the encoder writes, up to the ignored field (R92, R104). The cases are the decoder's
own: the groups with a selector, then the formats FNNN and FXKK. -/
theorem encode_of_decode (h : decode w = some i) : encode i = canonicalWord i w := by
  unfold decode at h
  split at h
  case h_1 => exact encode_of_decodeGroup0 h
  case h_9 hop => exact encode_of_decodeGroup8 hop h
  case h_15 hop => exact encode_of_decodeGroupE hop h
  case h_16 hop => exact encode_of_decodeGroupF hop h
  case h_6 hop | h_10 hop =>
    split at h <;> cases h
    next hn => exact wordFXYN_of_op hop (congrArg BitVec.toNat hn)
  case h_14 hop => cases h; exact wordFXYN_of_op hop rfl
  all_goals cases h
  case h_2 hop | h_3 hop | h_11 hop | h_12 hop => exact wordFNNN_of_op hop
  all_goals
    next hop => exact wordFXKK_of_op hop rfl

/-! ### The bits that settle a word's kind -/

/-- The selector bits of a word of op `op`: the whole word in group 0, op and n in groups 5, 8 and 9, op and kk in
groups E and F, and op alone in every other group (R96 to R100). -/
def selectorMask (op : BitVec 4) : Word :=
  match op.toNat with
  | 0x0 => 0xFFFF
  | 0x5 | 0x8 | 0x9 => 0xF00F
  | 0xE | 0xF => 0xF0FF
  | _ => 0xF000

/-- Every selector mask keeps the op whole. -/
theorem opField_selectorMask (op : BitVec 4) : opField (selectorMask op) = 0xF := by
  revert op; decide

/-- Each row's mask is the selector mask of its pattern's op. -/
theorem mask_of_mem_opcodeTable (hr : r ∈ opcodeTable) : r.mask = selectorMask (opField r.pattern) := by
  revert r; decide

/-- Words that agree under a mask agree in every field that the mask keeps whole. -/
theorem extractLsb'_eq_of_masked {start len : Nat} (h : w &&& m = v &&& m)
    (hm : m.extractLsb' start len = BitVec.allOnes len) : w.extractLsb' start len = v.extractLsb' start len := by
  have hfield := congrArg (BitVec.extractLsb' start len) h
  simpa [BitVec.extractLsb'_and, hm] using hfield

theorem decodeGroup8_mnemonic_congr (hn : nField w = nField v) :
    (decodeGroup8 w).map Instr.mnemonic = (decodeGroup8 v).map Instr.mnemonic := by
  simp only [decodeGroup8, hn]
  split <;> rfl

theorem decodeGroupE_mnemonic_congr (hkk : kkField w = kkField v) :
    (decodeGroupE w).map Instr.mnemonic = (decodeGroupE v).map Instr.mnemonic := by
  simp only [decodeGroupE, hkk]
  split <;> rfl

theorem decodeGroupF_mnemonic_congr (hkk : kkField w = kkField v) :
    (decodeGroupF w).map Instr.mnemonic = (decodeGroupF v).map Instr.mnemonic := by
  simp only [decodeGroupF, hkk]
  split <;> rfl

/-- The kind of a word is the kind of every word with the same op and the same selector bits (R96 to R102). -/
theorem decode_mnemonic_congr (hop : opField w = opField v)
    (hsel : w &&& selectorMask (opField v) = v &&& selectorMask (opField v)) :
    (decode w).map Instr.mnemonic = (decode v).map Instr.mnemonic := by
  have hword (hm : selectorMask (opField v) = BitVec.allOnes 16) : w = v := by
    rwa [hm, BitVec.and_allOnes, BitVec.and_allOnes] at hsel
  have hn (hm : nField (selectorMask (opField v)) = 0xF) : nField w = nField v := extractLsb'_eq_of_masked hsel hm
  have hkk (hm : kkField (selectorMask (opField v)) = 0xFF) : kkField w = kkField v :=
    extractLsb'_eq_of_masked hsel hm
  unfold selectorMask at hword hn hkk
  simp only [decode, hop]
  split
  case h_1 h0 => rw [hword (by rw [h0]; rfl)]
  case h_9 h8 => exact decodeGroup8_mnemonic_congr (hn (by rw [h8]; rfl))
  case h_6 hval | h_10 hval =>
    rw [hn (by rw [hval]; rfl)]
    split <;> rfl
  case h_15 hE => exact decodeGroupE_mnemonic_congr (hkk (by rw [hE]; rfl))
  case h_16 hF => exact decodeGroupF_mnemonic_congr (hkk (by rw [hF]; rfl))
  all_goals rfl

/-- A row selects only words of its own kind, so no word selects two rows (R101). -/
theorem decode_mnemonic_of_selects (hr : r ∈ opcodeTable) (hw : r.selects w = true) :
    (decode w).map Instr.mnemonic = some r.mnemonic := by
  have hpattern : ∀ r ∈ opcodeTable, r.pattern &&& r.mask = r.pattern ∧
      (decode r.pattern).map Instr.mnemonic = some r.mnemonic := by decide
  obtain ⟨hself, hkind⟩ := hpattern r hr
  have hsel : w &&& r.mask = r.pattern &&& r.mask := by
    rw [hself]
    simpa [Row.selects] using hw
  rw [mask_of_mem_opcodeTable hr] at hsel
  rw [← hkind]
  exact decode_mnemonic_congr (extractLsb'_eq_of_masked hsel (opField_selectorMask _)) hsel

/-! ### A decoded word selects a row -/

/-- The word of an instruction selects a row of its mnemonic: the 34 lemmas of `SelectsItsRow` together. -/
theorem selectsItsRow (i : Instr) : Laws.SelectsItsRow.Statement i := by
  open Laws.SelectsItsRow in
  cases i with
  | cls => exact cls
  | ret => exact ret
  | jp nnn => exact jp nnn
  | call nnn => exact call nnn
  | se x kk => exact se x kk
  | sne x kk => exact sne x kk
  | ser x y => exact ser x y
  | ld x kk => exact ld x kk
  | add x kk => exact add x kk
  | ldr x y => exact ldr x y
  | or x y => exact or x y
  | and x y => exact and x y
  | xor x y => exact xor x y
  | addr x y => exact addr x y
  | sub x y => exact sub x y
  | shr x => exact shr x
  | subn x y => exact subn x y
  | shl x => exact shl x
  | sner x y => exact sner x y
  | ldi nnn => exact ldi nnn
  | jpo nnn => exact jpo nnn
  | rnd x kk => exact rnd x kk
  | drw x y n => exact drw x y n
  | skp x => exact skp x
  | sknp x => exact sknp x
  | lddt x => exact lddt x
  | ldkp x => exact ldkp x
  | lddtr x => exact lddtr x
  | ldst x => exact ldst x
  | addi x => exact addi x
  | lds x => exact lds x
  | ldbcd x => exact ldbcd x
  | ldir x => exact ldir x
  | ldri x => exact ldri x

/-- The rows SHR and SHL look at no bit of the field y (R98, R104). -/
theorem mask_clear_y (hr : r ∈ opcodeTable) (hshift : r.mnemonic = "SHR" ∨ r.mnemonic = "SHL") :
    0xFF0F &&& r.mask = r.mask := by
  revert r; decide

/-- A row of an instruction's mnemonic that selects its encoded word selects every word of the instruction. -/
theorem selects_of_selects_canonicalWord (hr : r ∈ opcodeTable) (hname : r.mnemonic = i.mnemonic)
    (hsel : r.selects (canonicalWord i w) = true) : r.selects w = true := by
  unfold canonicalWord at hsel
  cases hy : i.ignoresY with
  | false => simpa [hy] using hsel
  | true =>
    have hmask := mask_clear_y hr (hname ▸ i.ignoresY_iff.1 hy)
    simpa only [Row.selects, hy, cond_true, BitVec.and_assoc, hmask] using hsel

/-- A decoded word is well formed (R101). -/
theorem recognised_of_decode (h : decode w = some i) : recognised w = true := by
  obtain ⟨r, hr, hname, hsel⟩ := selectsItsRow i
  rw [encode_of_decode h] at hsel
  exact List.any_eq_true.2 ⟨r, hr, selects_of_selects_canonicalWord hr hname hsel⟩

/-- A well-formed word is decoded (R101, R102). -/
theorem decode_ne_none_of_recognised (h : recognised w = true) : decode w ≠ none := by
  obtain ⟨r, hr, hsel⟩ := List.any_eq_true.1 h
  intro hnone
  simpa [hnone] using decode_mnemonic_of_selects hr hsel

/-! ### The obligations -/

/-- Settles O2, by the round trip of each group. -/
theorem decodeOfEncode : Obligations.DecodeOfEncode := by
  unfold Obligations.DecodeOfEncode
  exact decode_encode

/-- Settles O3: the encoder writes the canonical word, which clears y in SHR and SHL alone. -/
theorem encodeOfDecode : Obligations.EncodeOfDecode := by
  unfold Obligations.EncodeOfDecode
  intro w i h
  simp only [encode_of_decode h, canonicalWord, ← i.ignoresY_iff, cond_eq_ite]

/-- Settles O4: a decoded word selects its encoding's row, and a selected row names the kind of the word. -/
theorem decodeAgreesWithTable : Obligations.DecodeAgreesWithTable := by
  unfold Obligations.DecodeAgreesWithTable
  refine fun w => ⟨⟨fun hnone => ?unknown, fun hrow => ?noRow⟩, fun i h r hr hsel => ?sameKind⟩
  case unknown =>
    exact Bool.eq_false_iff.2 fun hrec => decode_ne_none_of_recognised hrec hnone
  case noRow =>
    exact Option.eq_none_iff_forall_ne_some.2 fun i h => by simp [recognised_of_decode h] at hrow
  case sameKind =>
    simpa [h, eq_comm] using decode_mnemonic_of_selects hr hsel

end Sys2Proof
end

section
/-! PROOF. The cycle and the transfers of control (40_cycle_and_control.md R120 to R132). First the cycle in Running:
two byte reads make the fetched word, and the decoded instruction is run. Then CALL and RET, which change PC, SP and the
stack and nothing else; then the four skips that compare. -/

namespace Sys2Proof.Machine

/-! ### The cycle in Running -/

/-- A byte read that answers gives the byte listed at an address in range (20_memory.md R61). -/
theorem memRead_eq_ok {m : List Host.Cell} {a : Nat} {b : Byte} (h : memRead m a = .ok b) : a < 4096 ∧ peek m a = b := by
  by_cases ha : a < 4096
  · rw [memRead_valid m ha] at h
    exact ⟨ha, Except.ok.inj h⟩
  · rw [memRead_invalid m ha] at h
    cases h

/-- The fetch gives the word of the two bytes that byte reads at PC and PC + 1 give (R121). -/
theorem fetch_of_memRead {s : State} {b0 b1 : Byte} (h0 : memRead s.mem s.pc.toNat = .ok b0)
    (h1 : memRead s.mem (s.pc.toNat + 1) = .ok b1) : s.fetch = .ok (wordOfBytes b0 b1) := by
  obtain ⟨-, rfl⟩ := memRead_eq_ok h0
  obtain ⟨hlt, rfl⟩ := memRead_eq_ok h1
  exact fetch_of_le s (by omega)

/-- Settles O8: the fetch gives the word of the two bytes, and a step on a `cycle`, by default or stated, is the cycle. -/
theorem stepRunsDecodedInstruction : Obligations.StepRunsDecodedInstruction := by
  unfold Obligations.StepRunsDecodedInstruction
  intro s b0 b1 i hrun h0 h1 hdecode
  have hfetch : s.fetch = .ok (wordOfBytes b0 b1) := fetch_of_memRead h0 h1
  refine ⟨fun hnil => ?_, fun rest hcons => ?_⟩
  · rw [step_nil s hnil, cycle_of_fetched hrun hfetch hdecode]
  · rw [step_cons s .cycle rest hcons]
    exact cycle_of_fetched (s := { s with events := rest }) hrun hfetch hdecode

/-! ### CALL and RET -/

/-- The state with its PC, SP and stack replaced: the form of every answer of a CALL with room and of a RET with an
entry (`exec_call_of_room`, `exec_ret_of_entry`). -/
def State.withControl (s : State) (pc : Word) (sp : Fin 17) (stack : Vector Word 16) : State :=
  { s with pc := pc, sp := sp, stack := stack }

@[simp] theorem State.withControl_pc (s : State) (pc : Word) (sp : Fin 17) (stack : Vector Word 16) :
    (s.withControl pc sp stack).pc = pc := rfl
@[simp] theorem State.withControl_sp (s : State) (pc : Word) (sp : Fin 17) (stack : Vector Word 16) :
    (s.withControl pc sp stack).sp = sp := rfl
@[simp] theorem State.withControl_stack (s : State) (pc : Word) (sp : Fin 17) (stack : Vector Word 16) :
    (s.withControl pc sp stack).stack = stack := rfl

/-- Everything but PC, SP and the stack is unchanged (10_state.md R24, R26, R27). -/
theorem State.withControl_frame (s : State) (pc : Word) (sp : Fin 17) (stack : Vector Word 16) :
    RegsKept [] s (s.withControl pc sp stack) ∧ (s.withControl pc sp stack).i = s.i ∧
      TimersKept s (s.withControl pc sp stack) ∧ (s.withControl pc sp stack).run = s.run ∧
      MemoryKept s (s.withControl pc sp stack) ∧ ScreenKept s (s.withControl pc sp stack) ∧
      EnvironmentKept s (s.withControl pc sp stack) ∧ (s.withControl pc sp stack).samples = s.samples :=
  ⟨fun _ _ => rfl, rfl, ⟨rfl, rfl⟩, rfl, fun _ => rfl, fun _ _ => rfl, ⟨rfl, rfl⟩, rfl⟩

/-- CALL with room on the stack (R125). -/
theorem exec_call_of_room (nnn : Addr) {s : State} (h : s.sp.val < 16) :
    exec (.call nnn) s = .next
      (s.withControl (nnn.setWidth 16) ⟨s.sp.val + 1, Nat.succ_lt_succ h⟩ (s.stack.set s.sp.val (s.pc + 2))) := by
  obtain ⟨_, hcall⟩ | ⟨hfull, -⟩ := execCall_cases nnn s
  · exact hcall
  · omega

/-- RET with an entry on the stack (R126). -/
theorem exec_ret_of_entry {s : State} {k : Fin 16} (h : s.sp.val = k.val + 1) :
    exec .ret s = .next (s.withControl s.stack[k] k.castSucc s.stack) := by
  obtain ⟨j, hj, hret⟩ | ⟨hempty, -⟩ := execRet_cases s
  · obtain rfl : j = k := Fin.ext (by omega)
    exact hret
  · omega

/-- Settles O34: the answer is `exec_call_of_room`'s, and the entry at SP is the one the push sets. -/
theorem callPushesReturnAddress : Obligations.CallPushesReturnAddress := by
  unfold Obligations.CallPushesReturnAddress
  intro nnn s hroom
  refine ⟨_, exec_call_of_room nnn hroom, ?target, rfl, fun k => ?entries, s.withControl_frame _ _ _⟩
  case target =>
    exact BitVec.toNat_setWidth_of_le (by decide)
  case entries =>
    simp [Vector.getElem_set, eq_comm]

/-- Settles O35: the answer is `exec_ret_of_entry`'s. -/
theorem retPopsReturnAddress : Obligations.RetPopsReturnAddress := by
  unfold Obligations.RetPopsReturnAddress
  exact fun s k h => ⟨_, exec_ret_of_entry h, rfl, rfl, rfl, s.withControl_frame _ _ _⟩

/-- Settles O37: the CALL leaves PC + 2 in its own entry, which is the entry just below the SP the RET finds. -/
theorem retReturnsBehindCall : Obligations.RetReturnsBehindCall := by
  unfold Obligations.RetReturnsBehindCall
  intro nnn s t u k hk hcall husp hentry
  obtain ⟨t', hcall', -, hsp, hstack, -⟩ := callPushesReturnAddress nnn s (by omega)
  obtain rfl : t = t' := by simpa [hcall] using hcall'
  have hbelow : u.sp.val = k.val + 1 := by rw [husp, hsp, hk]
  obtain ⟨v, hret, hpc, hvsp, -⟩ := retPopsReturnAddress u k hbelow
  refine ⟨v, hret, ?_, Fin.ext (hvsp.trans hk.symm)⟩
  calc v.pc = u.stack[k] := hpc
    _ = t.stack[k] := hentry
    _ = s.pc + 2 := by rw [hstack k, if_pos hk.symm]

/-! ### The skips -/

/-- A skip changes nothing but PC (R128). -/
theorem State.skipIf_onlyRegsAndPc (s : State) (c : Bool) : OnlyRegsAndPc [] s (s.skipIf c) :=
  ⟨fun _ _ => rfl, rfl, ⟨rfl, rfl⟩, ⟨rfl, rfl⟩, rfl, fun _ => rfl, fun _ _ => rfl, ⟨rfl, rfl⟩⟩

/-- The common rule of the skips (R128), for a condition `p` and its opposite `q` that the skip decides by `c`. -/
theorem State.skipIf_rule (s : State) {c : Bool} {p q : Prop} (hp : p → c = true) (hq : q → c = false) :
    (p → (s.skipIf c).pc = s.pc + 4) ∧ (q → (s.skipIf c).pc = s.pc + 2) ∧ (s.skipIf c).samples = s.samples ∧
      OnlyRegsAndPc [] s (s.skipIf c) :=
  ⟨fun h => by simp [hp h], fun h => by simp [hq h], rfl, s.skipIf_onlyRegsAndPc c⟩

/-- A skip on equal bytes (R129, R131). -/
theorem State.skipIf_beq (s : State) (a b : Byte) :
    (a = b → (s.skipIf (a == b)).pc = s.pc + 4) ∧ (a ≠ b → (s.skipIf (a == b)).pc = s.pc + 2) ∧
      (s.skipIf (a == b)).samples = s.samples ∧ OnlyRegsAndPc [] s (s.skipIf (a == b)) :=
  s.skipIf_rule beq_iff_eq.2 beq_false_of_ne

/-- A skip on different bytes (R130, R132). -/
theorem State.skipIf_bne (s : State) (a b : Byte) :
    (a ≠ b → (s.skipIf (a != b)).pc = s.pc + 4) ∧ (a = b → (s.skipIf (a != b)).pc = s.pc + 2) ∧
      (s.skipIf (a != b)).samples = s.samples ∧ OnlyRegsAndPc [] s (s.skipIf (a != b)) :=
  s.skipIf_rule bne_iff_ne.2 fun h => by simp [h]

/-- Settles O32: SE and SER skip on equal bytes, SNE and SNER on different ones. -/
theorem compareSkips : Obligations.CompareSkips := by
  unfold Obligations.CompareSkips
  exact fun x y kk s => ⟨⟨_, rfl, s.skipIf_beq (s.reg x) kk⟩, ⟨_, rfl, s.skipIf_bne (s.reg x) kk⟩,
    ⟨_, rfl, s.skipIf_beq (s.reg x) (s.reg y)⟩, ⟨_, rfl, s.skipIf_bne (s.reg x) (s.reg y)⟩⟩

end Sys2Proof.Machine
end

section
/-! PROOF. Register load and arithmetic (41_alu.md R152, R154, R158). First what the two ends of an ALU instruction leave
unchanged: a register write with the advance, and the write of a flag and a result (R150). Then the carry as a number. -/

namespace Sys2Proof.Machine

/-! ### The two ends of an ALU instruction -/

/-- An instruction that ends in one register write changes that register and PC alone. -/
theorem State.advance_setReg_onlyRegsAndPc (s : State) (x : Reg) (b : Byte) :
    OnlyRegsAndPc [x] s (s.setReg x b).advance :=
  ⟨fun _ hr => s.reg_setReg_ne b (List.ne_of_not_mem_cons hr), rfl, ⟨rfl, rfl⟩, ⟨rfl, rfl⟩, rfl, fun _ => rfl,
    fun _ _ => rfl, ⟨rfl, rfl⟩⟩

/-- An instruction that ends in the write of a flag and a result changes VF, the result's register and PC alone. -/
theorem State.writeFlagged_onlyRegsAndPc (s : State) (x : Reg) (flag result : Byte) :
    OnlyRegsAndPc [x, 15] s (s.writeFlagged x flag result) := by
  have hregs : RegsKept [x, 15] s (s.writeFlagged x flag result) := by
    intro r hr
    obtain ⟨hx, hf⟩ : r ≠ x ∧ r ≠ 15 := by simpa using hr
    rw [reg_writeFlagged, if_neg hx, if_neg hf]
  exact ⟨hregs, rfl, ⟨rfl, rfl⟩, ⟨rfl, rfl⟩, rfl, fun _ => rfl, fun _ _ => rfl, ⟨rfl, rfl⟩⟩

/-- The result's register holds the result, also where it is VF itself (R164, D5). -/
@[simp] theorem State.reg_writeFlagged_result (s : State) (x : Reg) (flag result : Byte) :
    (s.writeFlagged x flag result).reg x = result := by
  rw [reg_writeFlagged, if_pos rfl]

/-- VF holds the flag, where the result goes to another register. -/
theorem State.reg_writeFlagged_flag (s : State) {x : Reg} (flag result : Byte) (h : x ≠ 15) :
    (s.writeFlagged x flag result).reg 15 = flag := by
  rw [reg_writeFlagged, if_neg h.symm, if_pos rfl]

/-- The carry as a number: 1 where the true sum exceeds 255 (R158). -/
theorem carryFlag_toNat (a b : Byte) : (carryFlag a b).toNat = if a.toNat + b.toNat > 255 then 1 else 0 := by
  simp only [carryFlag, flagByte_toNat, decide_eq_true_eq]

/-! ### The obligations -/

/-- Settles O25: the word is the encoder's, and the one register written reads the immediate. -/
theorem ldLoadsImmediate : Obligations.LdLoadsImmediate := by
  unfold Obligations.LdLoadsImmediate
  exact fun x kk s => ⟨decode_encode (.ld x kk), _, rfl, s.reg_setReg_same x kk, rfl, rfl,
    s.advance_setReg_onlyRegsAndPc x kk⟩

/-- Settles O26: the word is the encoder's, and the one register written reads the sum of bytes, which wraps at 256. -/
theorem addImmediateWraps : Obligations.AddImmediateWraps := by
  unfold Obligations.AddImmediateWraps
  intro x kk s
  refine ⟨decode_encode (.add x kk), _, rfl, ?sum, rfl, rfl, s.advance_setReg_onlyRegsAndPc x (s.reg x + kk)⟩
  case sum =>
    rw [State.reg_advance, State.reg_setReg_same, BitVec.toNat_add]

/-- Settles O28: the result's register reads the sum of bytes, which wraps at 256, and VF, where it is another register,
the carry. -/
theorem addrReportsCarry : Obligations.AddrReportsCarry := by
  unfold Obligations.AddrReportsCarry
  intro x y s
  refine ⟨_, rfl, ?sum, fun hx => ?carry, rfl, rfl, s.writeFlagged_onlyRegsAndPc x _ _⟩
  case sum =>
    rw [State.reg_writeFlagged_result, BitVec.toNat_add]
  case carry =>
    rw [State.reg_writeFlagged_flag s _ _ hx, carryFlag_toNat]

end Sys2Proof.Machine
end

section
/-! PROOF. LDIR and LDRI through memory (42_index_and_memory.md R184, R185, R187). First the two instructions where
their x + 1 bytes lie in memory, read through `memRead`; then the round trip. -/

namespace Sys2Proof.Machine

/-! ### LDIR -/

/-- The k-th byte LDIR stores is register k (R184). -/
theorem getElem_regsUpTo (s : State) (x : Reg) {k : Nat} (h : k < (s.regsUpTo x).length) (hk : k < 16) :
    (s.regsUpTo x)[k] = s.v[k] := by
  simp [State.regsUpTo]

/-- LDIR where its bytes lie in memory makes all its stores (R184). -/
theorem exec_ldir_of_fits {x : Reg} {s : State} (h : s.base + x.toNat ≤ 4095) :
    exec (.ldir x) s = .next { s with mem := (storeBytes s.mem s.base (s.regsUpTo x)).1 }.advance := by
  obtain ⟨-, hexec⟩ | ⟨hpast, -⟩ := execLdir_cases x s
  · exact hexec
  · omega

/-- After LDIR's stores the byte at I + k reads V[k], for each of V0..Vx (R184). -/
theorem memRead_storeBytes_regsUpTo {x r : Reg} {s : State} (h : s.base + x.toNat ≤ 4095) (hr : r.toNat ≤ x.toNat) :
    memRead (storeBytes s.mem s.base (s.regsUpTo x)).1 (s.base + r.toNat) = .ok (s.reg r) := by
  have hlen := length_regsUpTo s x
  have hbyte : s.base ≤ s.base + r.toNat ∧ s.base + r.toNat < s.base + (s.regsUpTo x).length ∧
      s.base + r.toNat < 4096 := by omega
  rw [memRead_valid _ (by omega), peek_storeBytes, dif_pos hbyte, getElem_regsUpTo s x _ (by omega)]
  simp [State.reg]

/-! ### LDRI -/

/-- LDRI where its bytes lie in memory makes all its loads (R185). -/
theorem exec_ldri_of_fits {x : Reg} {s : State} (h : s.base + x.toNat ≤ 4095) :
    exec (.ldri x) s = .next { s with v := (loadRegs s.mem s.base 0 (x.toNat + 1) s.v).1 }.advance := by
  obtain ⟨-, hexec⟩ | ⟨hpast, -⟩ := execLdri_cases x s
  · exact hexec
  · omega

/-- LDRI gives each of V0..Vx the byte a read at I + k gives (R185). -/
theorem getElem_loadRegs_of_memRead {x r : Reg} {s : State} {b : Byte} (hr : r.toNat ≤ x.toNat)
    (h : memRead s.mem (s.base + r.toNat) = .ok b) :
    (loadRegs s.mem s.base 0 (x.toNat + 1) s.v).1[r.toNat] = b := by
  obtain ⟨hlt, rfl⟩ := memRead_eq_ok h
  rw [getElem_loadRegs, if_pos (by omega), Nat.sub_zero]

/-! ### The obligation -/

/-- Settles O45: the byte at I + k reads V[k] in the state LDIR leaves, so in `u` too, and there LDRI loads it into
V[k]. -/
theorem storedRegistersLoadBack : Obligations.StoredRegistersLoadBack := by
  unfold Obligations.StoredRegistersLoadBack
  intro x s t u hfits hstore hi hkept
  rw [exec_ldir_of_fits hfits] at hstore
  cases hstore
  have hbase : u.base = s.base := congrArg BitVec.toNat hi
  refine ⟨_, exec_ldri_of_fits (hbase ▸ hfits), fun r hr => getElem_loadRegs_of_memRead hr ?_⟩
  calc memRead u.mem (u.base + r.toNat)
    _ = memRead (storeBytes s.mem s.base (s.regsUpTo x)).1 (s.base + r.toNat) := by
      rw [hbase]
      exact hkept _ (by omega) (by omega)
    _ = .ok (s.reg r) := memRead_storeBytes_regsUpTo hfits hr

end Sys2Proof.Machine
end

section
/-! PROOF. The framebuffer (43_display.md R201 to R208). First a sprite drawn twice; then what CLS leaves unchanged; then
`pixel_read` inside and outside the bounds. -/

namespace Sys2Proof.Machine

/-! ### Drawing twice -/

/-- `drawSprite` flips the cells its set bits fall on, and no other (R206 (b)). -/
theorem pixel_drawSprite (x0 y0 : Nat) {rows : List Byte} (h : rows.length ≤ 32) (fb : Screen) (x : Fin 64)
    (y : Fin 32) : pixel (drawSprite x0 y0 rows fb).1 x y = (pixel fb x y ^^ rowsSet x0 y0 0 rows x y) :=
  pixel_drawRows x0 y0 0 rows h (fb, false) x y

/-- Settles O48: the cells a sprite flips do not depend on the framebuffer, so the second drawing flips the same ones
back. Up to 32 rows fall on distinct rows of the framebuffer, hence up to 15 do. -/
theorem drawingTwiceRestores : Obligations.DrawingTwiceRestores := by
  unfold Obligations.DrawingTwiceRestores
  intro x0 y0 rows fb hlen
  have hrows : rows.length ≤ 32 := hlen.trans (by decide)
  refine screen_ext fun x y => ?_
  rw [pixel_drawSprite x0 y0 hrows, pixel_drawSprite x0 y0 hrows, Bool.xor_assoc, Bool.xor_self, Bool.xor_false]

/-! ### CLS -/

/-- An instruction that ends in a new framebuffer changes that and PC alone. -/
theorem State.advance_withScreen_onlyRegsAndPc (s : State) (fb : Screen) :
    OnlyRegsAndPc [] s { { s.advance with fb := fb } with fb := s.fb } :=
  ⟨fun _ _ => rfl, rfl, ⟨rfl, rfl⟩, ⟨rfl, rfl⟩, rfl, fun _ => rfl, fun _ _ => rfl, ⟨rfl, rfl⟩⟩

/-- Settles O46: CLS ends in the cleared framebuffer. -/
theorem clsClearsEveryCell : Obligations.ClsClearsEveryCell := by
  unfold Obligations.ClsClearsEveryCell
  exact fun s => ⟨_, rfl, pixel_clearScreen, rfl, rfl, s.advance_withScreen_onlyRegsAndPc clearScreen⟩

/-! ### `pixel_read` -/

/-- `pixel_read` inside the bounds gives the cell (R208). -/
theorem pixelRead_inside (s : State) (dx : Fin 64) (dy : Fin 32) :
    pixelRead s dx.val dy.val = .ok (pixel s.fb dx dy) := by
  have hin : (0 : Int) ≤ dx.val ∧ (dx.val : Int) < 64 ∧ (0 : Int) ≤ dy.val ∧ (dy.val : Int) < 32 := by omega
  rw [pixelRead, dif_pos hin]
  rfl

/-- `pixel_read` outside the bounds returns OutOfRange (R208; 60_exceptions.md R245). -/
theorem pixelRead_outside (s : State) {x y : Int} (h : x < 0 ∨ 63 < x ∨ y < 0 ∨ 31 < y) :
    pixelRead s x y = .error .outOfRange :=
  dif_neg (by omega)

/-- Settles O49, by the two cases of the bounds. -/
theorem pixelReadChecksBounds : Obligations.PixelReadChecksBounds := by
  unfold Obligations.PixelReadChecksBounds
  refine fun s x y => ⟨fun dx dy hx hy => ?inside, fun h => pixelRead_outside s h⟩
  case inside =>
    subst hx hy
    exact pixelRead_inside s dx dy

end Sys2Proof.Machine
end

section
/-! PROOF. The timers (44_keypad_and_timers.md R225 to R227). -/

namespace Sys2Proof.Machine

/-- Going on to the next instruction changes PC alone. -/
theorem State.advance_onlyRegsAndPc (s : State) : OnlyRegsAndPc [] s s.advance :=
  s.skipIf_onlyRegsAndPc false

/-- Settles O53: LDDT is a register write that ends in `advance`; LDDTR and LDST, with their timer put back, are `advance`
alone. -/
theorem timerInstructions : Obligations.TimerInstructions := by
  unfold Obligations.TimerInstructions
  refine fun x s => ⟨?lddt, ?lddtr, ?ldst⟩
  case lddt => exact ⟨_, rfl, s.reg_setReg_same x s.dt, rfl, rfl, s.advance_setReg_onlyRegsAndPc x s.dt⟩
  case lddtr => exact ⟨_, rfl, rfl, rfl, rfl, s.advance_onlyRegsAndPc⟩
  case ldst => exact ⟨_, rfl, rfl, rfl, rfl, s.advance_onlyRegsAndPc⟩

end Sys2Proof.Machine
end

section
/-! PROOF. What an instruction does to the model's own fields (10_state.md R38, R40): it answers a next state that keeps
the environment's fields, also where it halts (60_exceptions.md R240), and counts the samples it takes. -/

namespace Sys2Proof.Machine

/-- A transfer's end, the advance or the halt, keeps the environment's fields and takes no sample (R242). -/
theorem State.afterTransfer_environmentKept (s : State) (i : Instr) (failed : Option Nat) :
    EnvironmentKept s (s.afterTransfer i failed) ∧ (s.afterTransfer i failed).samples = s.samples := by
  cases failed with
  | none => exact ⟨⟨rfl, rfl⟩, rfl⟩
  | some a => exact ⟨⟨rfl, rfl⟩, rfl⟩

/-- Settles O20: RET, CALL and DRW by their two ends, a halt being a next state too; the memory transfers by their common
end; RND, SKP and SKNP end in `sampled`, and no other instruction does. -/
theorem everyInstructionAnswers : Obligations.EveryInstructionAnswers := by
  unfold Obligations.EveryInstructionAnswers
  intro i s
  cases i with
  | ret => obtain ⟨_, -, h⟩ | ⟨-, h⟩ := execRet_cases s <;> exact ⟨_, h, ⟨rfl, rfl⟩, rfl⟩
  | call nnn => obtain ⟨_, h⟩ | ⟨-, h⟩ := execCall_cases nnn s <;> exact ⟨_, h, ⟨rfl, rfl⟩, rfl⟩
  | drw x y n => obtain ⟨-, h⟩ | ⟨-, -, h⟩ := execDrw_cases x y n s <;> exact ⟨_, h, ⟨rfl, rfl⟩, rfl⟩
  | ldbcd | ldir | ldri => exact ⟨_, rfl, State.afterTransfer_environmentKept _ _ _⟩
  | rnd | skp | sknp => exact ⟨_, rfl, ⟨rfl, rfl⟩, State.sampled_samples _⟩
  | _ => exact ⟨_, rfl, ⟨rfl, rfl⟩, rfl⟩

end Sys2Proof.Machine
end

section
/-! PROOF. JP, JPO and the two stack errors (40_cycle_and_control.md R124 to R127; 60_exceptions.md R243, R244). -/

namespace Sys2Proof.Machine

/-! ### The jumps -/

/-- An address is the same number as a 16-bit target (R124). -/
theorem toNat_target (nnn : Addr) : (nnn.setWidth 16).toNat = nnn.toNat :=
  BitVec.toNat_setWidth_of_le (by decide)

/-- JPO's target is the sum of nnn and V[0] as numbers: 16 bits hold it (R127). -/
theorem toNat_offset_target (nnn : Addr) (b : Byte) :
    (nnn.setWidth 16 + b.setWidth 16).toNat = nnn.toNat + b.toNat := by
  rw [BitVec.toNat_add, toNat_target, BitVec.toNat_setWidth_of_le (by decide)]
  exact Nat.mod_eq_of_lt (by omega)

/-- A jump changes PC alone (R124). -/
theorem State.jump_onlyRegsAndPc (s : State) (w : Word) : OnlyRegsAndPc [] s (s.jump w) :=
  ⟨fun _ _ => rfl, rfl, ⟨rfl, rfl⟩, ⟨rfl, rfl⟩, rfl, fun _ => rfl, fun _ _ => rfl, ⟨rfl, rfl⟩⟩

/-- Settles O33: both are jumps, and their targets are not reduced. -/
theorem jumpsSetProgramCounter : Obligations.JumpsSetProgramCounter := by
  unfold Obligations.JumpsSetProgramCounter
  exact fun nnn s => ⟨⟨_, rfl, toNat_target nnn, rfl, s.jump_onlyRegsAndPc _⟩,
    ⟨_, rfl, toNat_offset_target nnn (s.reg 0), rfl, s.jump_onlyRegsAndPc _⟩⟩

/-! ### The stack errors -/

/-- CALL at full depth halts with StackOverflow (R125). -/
theorem exec_call_of_full (nnn : Addr) {s : State} (h : s.sp.val = 16) :
    exec (.call nnn) s = .next (s.halt .stackOverflow (some (encode (.call nnn))) none) := by
  obtain ⟨hroom, -⟩ | ⟨-, hcall⟩ := execCall_cases nnn s
  · omega
  · exact hcall

/-- RET on an empty stack halts with StackUnderflow (R126). -/
theorem exec_ret_of_empty {s : State} (h : s.sp.val = 0) :
    exec .ret s = .next (s.halt .stackUnderflow (some (encode .ret)) none) := by
  obtain ⟨k, hk, -⟩ | ⟨-, hret⟩ := execRet_cases s
  · omega
  · exact hret

/-- Settles O36, by the two halts. -/
theorem stackErrorsHalt : Obligations.StackErrorsHalt := by
  unfold Obligations.StackErrorsHalt
  exact ⟨fun nnn _ => exec_call_of_full nnn, fun _ => exec_ret_of_empty⟩

end Sys2Proof.Machine
end

section
/-! PROOF. What each instruction may change (10_state.md R21 to R35): the general registers, the other parts of the state,
PC and the run state. First the frame of the two ends that several instructions share: a memory transfer's and DRW's. -/

namespace Sys2Proof.Machine

/-! ### Shared frames -/

/-- A state has kept everything of itself: the frame of a halt and of a wait, once the run state is put back. -/
theorem State.onlyRegsAndPc_self (s : State) : OnlyRegsAndPc [] s s :=
  ⟨fun _ _ => rfl, rfl, ⟨rfl, rfl⟩, ⟨rfl, rfl⟩, rfl, fun _ => rfl, fun _ _ => rfl, ⟨rfl, rfl⟩⟩

/-- A transfer's end, the advance or the halt, changes PC and the run state alone (60_exceptions.md R242). -/
theorem State.afterTransfer_onlyPc (s : State) (i : Instr) (failed : Option Nat) :
    OnlyRegsAndPc [] s { s.afterTransfer i failed with run := s.run } := by
  cases failed with
  | none => exact s.advance_onlyRegsAndPc
  | some a => exact s.onlyRegsAndPc_self

/-- DRW with its bytes read changes the framebuffer, VF and PC alone (43_display.md R205). -/
theorem State.drawAt_advance_onlyRegsAndPc (s : State) (x y : Reg) (rows : List Byte) :
    OnlyRegsAndPc [15] s { (s.drawAt x y rows).advance with fb := s.fb } :=
  s.advance_setReg_onlyRegsAndPc 15 (flagByte (drawSprite (s.reg x).toNat (s.reg y).toNat rows s.fb).2)

/-! ### The general registers -/

/-- A register that LDRI Vx does not name has a number above x. -/
theorem toNat_gt_of_not_mem_writesRegs_ldri {x r : Reg} (h : r ∉ writesRegs (.ldri x)) : x.toNat < r.toNat := by
  by_contra hle
  exact h (List.mem_map.2 ⟨r.toNat, List.mem_range.2 (by omega), BitVec.ofNat_toNat 4 r⟩)

/-- LDRI's loads leave the registers above x as they are (42_index_and_memory.md R185). -/
theorem getElem_loadRegs_above (s : State) {x r : Reg} (h : x.toNat < r.toNat) :
    (loadRegs s.mem s.base 0 (x.toNat + 1) s.v).1[r.toNat] = s.reg r := by
  rw [getElem_loadRegs, if_neg (by omega)]
  rfl

/-- Settles O22: an instruction writes no register, one that it names, VF and its result's, or V0..Vx. -/
theorem onlyNamedRegistersWritten : Obligations.OnlyNamedRegistersWritten := by
  unfold Obligations.OnlyNamedRegistersWritten
  intro i s t h
  cases i with
  | ld x | add x | ldr x | or x | and x | xor x | rnd x | lddt x =>
    cases h
    exact (s.advance_setReg_onlyRegsAndPc x _).1
  | addr x | sub x | subn x | shr x | shl x =>
    cases h
    exact (s.writeFlagged_onlyRegsAndPc x _ _).1
  | drw x y n =>
    obtain ⟨-, hdrw⟩ | ⟨-, -, hdrw⟩ := execDrw_cases x y n s <;> cases hdrw.symm.trans h
    · exact (s.drawAt_advance_onlyRegsAndPc x y _).1
    · exact fun _ _ => rfl
  | ldri x =>
    intro r hr
    have hkept := getElem_loadRegs_above s (toNat_gt_of_not_mem_writesRegs_ldri hr)
    obtain ⟨-, hldri⟩ | ⟨-, hldri⟩ := execLdri_cases x s <;> cases hldri.symm.trans h <;> exact hkept
  | ret => obtain ⟨_, -, hret⟩ | ⟨-, hret⟩ := execRet_cases s <;> cases hret.symm.trans h <;> exact fun _ _ => rfl
  | call nnn =>
    obtain ⟨_, hcall⟩ | ⟨-, hcall⟩ := execCall_cases nnn s <;> cases hcall.symm.trans h <;> exact fun _ _ => rfl
  | ldbcd | ldir =>
    cases h
    exact (State.afterTransfer_onlyPc _ _ _).1
  | _ =>
    cases h
    exact fun _ _ => rfl

/-! ### The other parts of the state -/

/-- Settles O23: each group of instructions writes the part it is named for, and no other. -/
theorem onlyNamedPartsWritten : Obligations.OnlyNamedPartsWritten := by
  unfold Obligations.OnlyNamedPartsWritten
  intro i s t h
  cases i with
  | cls =>
    cases h
    exact ⟨.inl fun _ => rfl, .inr (.inl rfl), .inl ⟨rfl, rfl⟩, .inl rfl, .inl rfl, .inl rfl⟩
  | drw x y n =>
    have hnamed : ∃ x' y' n', Instr.drw x y n = .drw x' y' n' := ⟨x, y, n, rfl⟩
    obtain ⟨-, hdrw⟩ | ⟨-, -, hdrw⟩ := execDrw_cases x y n s <;> cases hdrw.symm.trans h <;>
      exact ⟨.inl fun _ => rfl, .inr (.inr hnamed), .inl ⟨rfl, rfl⟩, .inl rfl, .inl rfl, .inl rfl⟩
  | ret =>
    obtain ⟨_, -, hret⟩ | ⟨-, hret⟩ := execRet_cases s <;> cases hret.symm.trans h <;>
      exact ⟨.inl fun _ => rfl, .inl fun _ _ => rfl, .inr (.inl rfl), .inl rfl, .inl rfl, .inl rfl⟩
  | call nnn =>
    obtain ⟨_, hcall⟩ | ⟨-, hcall⟩ := execCall_cases nnn s <;> cases hcall.symm.trans h <;>
      exact ⟨.inl fun _ => rfl, .inl fun _ _ => rfl, .inr (.inr ⟨nnn, rfl⟩), .inl rfl, .inl rfl, .inl rfl⟩
  | ldbcd x =>
    cases h
    obtain ⟨-, hi, hstack, ⟨hdt, hst⟩, -, -, hscreen, -⟩ := State.afterTransfer_onlyPc
      { s with mem := (storeBytes s.mem s.base (bcdDigits (s.reg x))).1 } (.ldbcd x) _
    exact ⟨.inr ⟨x, .inl rfl⟩, .inl hscreen, .inl hstack, .inl hdt, .inl hst, .inl hi⟩
  | ldir x =>
    cases h
    obtain ⟨-, hi, hstack, ⟨hdt, hst⟩, -, -, hscreen, -⟩ := State.afterTransfer_onlyPc
      { s with mem := (storeBytes s.mem s.base (s.regsUpTo x)).1 } (.ldir x) _
    exact ⟨.inr ⟨x, .inr rfl⟩, .inl hscreen, .inl hstack, .inl hdt, .inl hst, .inl hi⟩
  | ldri x =>
    cases h
    obtain ⟨-, hi, hstack, ⟨hdt, hst⟩, -, hmem, hscreen, -⟩ := State.afterTransfer_onlyPc
      { s with v := (loadRegs s.mem s.base 0 (x.toNat + 1) s.v).1 } (.ldri x) _
    exact ⟨.inl hmem, .inl hscreen, .inl hstack, .inl hdt, .inl hst, .inl hi⟩
  | lddtr x =>
    cases h
    exact ⟨.inl fun _ => rfl, .inl fun _ _ => rfl, .inl ⟨rfl, rfl⟩, .inr ⟨x, rfl⟩, .inl rfl, .inl rfl⟩
  | ldst x =>
    cases h
    exact ⟨.inl fun _ => rfl, .inl fun _ _ => rfl, .inl ⟨rfl, rfl⟩, .inl rfl, .inr ⟨x, rfl⟩, .inl rfl⟩
  | ldi nnn =>
    cases h
    exact ⟨.inl fun _ => rfl, .inl fun _ _ => rfl, .inl ⟨rfl, rfl⟩, .inl rfl, .inl rfl, .inr (.inl ⟨nnn, rfl⟩)⟩
  | addi x =>
    cases h
    exact ⟨.inl fun _ => rfl, .inl fun _ _ => rfl, .inl ⟨rfl, rfl⟩, .inl rfl, .inl rfl, .inr (.inr (.inl ⟨x, rfl⟩))⟩
  | lds x =>
    cases h
    exact ⟨.inl fun _ => rfl, .inl fun _ _ => rfl, .inl ⟨rfl, rfl⟩, .inl rfl, .inl rfl, .inr (.inr (.inr ⟨x, rfl⟩))⟩
  | _ =>
    cases h
    exact ⟨.inl fun _ => rfl, .inl fun _ _ => rfl, .inl ⟨rfl, rfl⟩, .inl rfl, .inl rfl, .inl rfl⟩

/-! ### The program counter -/

/-- A skip goes 2 or 4 on (40_cycle_and_control.md R128). -/
theorem State.skipIf_pc_cases (s : State) (c : Bool) :
    (s.skipIf c).pc = s.pc + 2 ∨ (s.skipIf c).pc = s.pc + 4 := by
  cases c
  · exact .inl rfl
  · exact .inr rfl

/-- A transfer goes 2 on, or it halts and PC stays (60_exceptions.md R242, R247). -/
theorem State.afterTransfer_pc_cases (s : State) (i : Instr) (failed : Option Nat) :
    (s.afterTransfer i failed).pc = s.pc + 2 ∨
      ∃ r, (s.afterTransfer i failed).run = .halted r ∧ (s.afterTransfer i failed).pc = s.pc := by
  cases failed with
  | none => exact .inl rfl
  | some a => exact .inr ⟨_, rfl, rfl⟩

/-- Settles O24: jumps by their targets, skips and transfers by the two cases of their common end. -/
theorem programCounterMoves : Obligations.ProgramCounterMoves := by
  unfold Obligations.ProgramCounterMoves
  intro i s t h
  cases i with
  | jp nnn =>
    cases h
    exact toNat_target nnn
  | jpo nnn =>
    cases h
    exact toNat_offset_target nnn (s.reg 0)
  | call nnn =>
    obtain ⟨_, hcall⟩ | ⟨hfull, hcall⟩ := execCall_cases nnn s <;> cases hcall.symm.trans h
    · exact .inl (toNat_target nnn)
    · exact .inr ⟨hfull, rfl⟩
  | ret =>
    obtain ⟨k, hk, hret⟩ | ⟨hempty, hret⟩ := execRet_cases s <;> cases hret.symm.trans h
    · exact .inl ⟨k, hk, rfl⟩
    · exact .inr ⟨hempty, rfl⟩
  | se | sne | ser | sner | skp | sknp =>
    cases h
    exact s.skipIf_pc_cases _
  | drw x y n =>
    obtain ⟨-, hdrw⟩ | ⟨-, -, hdrw⟩ := execDrw_cases x y n s <;> cases hdrw.symm.trans h
    · exact .inl rfl
    · exact .inr ⟨_, rfl, rfl⟩
  | ldbcd | ldir | ldri =>
    cases h
    exact State.afterTransfer_pc_cases _ _ _
  | _ =>
    cases h
    rfl

/-! ### The run state -/

/-- Settles O21: the effects of an instruction on the run state are those of `exec_runEffect`. -/
theorem onlySixInstructionsHalt : Obligations.OnlySixInstructionsHalt := by
  unfold Obligations.OnlySixInstructionsHalt
  intro i s t h hne
  obtain ⟨u, hu, heff⟩ := exec_runEffect i s
  obtain rfl : u = t := by simpa [hu] using h
  cases heff with
  | kept hrun => exact absurd hrun hne
  | waits x hi hrun => exact .inl ⟨x, hi, hrun⟩
  | halts reason addr hi hpc hrun hreason => exact .inr ⟨hi, hpc, _, hrun, rfl, rfl, hreason⟩

end Sys2Proof.Machine
end

section
/-! PROOF. The invariant of a run (10_state.md R28, R45; 60_exceptions.md R247): it holds after `power_on`, and every
instruction, hence every cycle, every event and every step keeps it. An instruction is run with the machine in Running,
started, and PC at most 0xFFE, where it was fetched. -/

namespace Sys2Proof.Machine

/-! ### One instruction -/

/-- A memory transfer's end leaves Memory as the transfer left it. -/
@[simp] theorem State.afterTransfer_mem (s : State) (i : Instr) (failed : Option Nat) :
    (s.afterTransfer i failed).mem = s.mem := by
  cases failed <;> rfl

/-- Every instruction keeps the canonical form of Memory: LDBCD and LDIR alone write it, by runs of byte writes. -/
theorem exec_keeps_wf {i : Instr} {s t : State} (hwf : Memory.wf s.mem = true) (h : exec i s = .next t) :
    Memory.wf t.mem = true := by
  cases i with
  | ldbcd | ldir =>
    cases h
    rw [State.afterTransfer_mem]
    exact wf_storeBytes _ _ _ hwf
  | ldri =>
    cases h
    rw [State.afterTransfer_mem]
    exact hwf
  | ret => obtain ⟨_, -, hret⟩ | ⟨-, hret⟩ := execRet_cases s <;> cases hret.symm.trans h <;> exact hwf
  | call nnn => obtain ⟨_, hcall⟩ | ⟨-, hcall⟩ := execCall_cases nnn s <;> cases hcall.symm.trans h <;> exact hwf
  | drw x y n => obtain ⟨-, hdrw⟩ | ⟨-, -, hdrw⟩ := execDrw_cases x y n s <;> cases hdrw.symm.trans h <;> exact hwf
  | _ =>
    cases h
    exact hwf

/-- Going on by 2 or 4 from an instruction in memory does not wrap (10_state.md R24, D4). -/
theorem toNat_pc_add {w : Word} (h : w.toNat ≤ 0xFFE) : (w + 2).toNat = w.toNat + 2 ∧ (w + 4).toNat = w.toNat + 4 := by
  bv_omega

/-- Every instruction that lies in memory leaves PC at most 0x10FE, which is JPO's farthest target (R45). -/
theorem exec_pc_le {i : Instr} {s t : State} (hinv : Invariant s) (hpc : s.pc.toNat ≤ 0xFFE)
    (h : exec i s = .next t) : t.pc.toNat ≤ 0x10FE := by
  have hmoves := programCounterMoves i s t h
  obtain ⟨hadd2, hadd4⟩ := toNat_pc_add hpc
  have kept (he : t.pc = s.pc) : t.pc.toNat ≤ 0x10FE := by rw [he]; omega
  have next (he : t.pc = s.pc + 2) : t.pc.toNat ≤ 0x10FE := by rw [he]; omega
  have skip (he : t.pc = s.pc + 4) : t.pc.toNat ≤ 0x10FE := by rw [he]; omega
  cases i with
  | jp nnn =>
    have htarget : t.pc.toNat = nnn.toNat := hmoves
    omega
  | jpo nnn =>
    have htarget : t.pc.toNat = nnn.toNat + (s.reg 0).toNat := hmoves
    omega
  | call nnn =>
    obtain htarget | ⟨-, he⟩ := hmoves
    · omega
    · exact kept he
  | ret =>
    obtain ⟨k, hk, he⟩ | ⟨-, he⟩ := hmoves
    · have hentry := (hinv.stack k (by omega)).2
      rw [he]
      omega
    · exact kept he
  | ldkp x => exact kept hmoves
  | se | sne | ser | sner | skp | sknp => exact hmoves.elim next skip
  | drw | ldbcd | ldir | ldri => exact hmoves.elim next fun ⟨_, _, he⟩ => kept he
  | _ => exact next hmoves

/-- Every live stack entry is a return address (10_state.md R28). -/
def LiveEntriesReturn (s : State) : Prop :=
  ∀ k : Fin 16, k.val < s.sp.val → 2 ≤ s.stack[k].toNat ∧ s.stack[k].toNat ≤ 0x1000

/-- Every instruction keeps the live stack entries return addresses: CALL adds one, RET takes one away (R28). -/
theorem exec_liveEntriesReturn {i : Instr} {s t : State} (hlive : LiveEntriesReturn s) (hpc : s.pc.toNat ≤ 0xFFE)
    (h : exec i s = .next t) : LiveEntriesReturn t := by
  obtain ⟨-, -, ⟨hsp, hstack⟩ | rfl | ⟨nnn, rfl⟩, -⟩ := onlyNamedPartsWritten i s t h
  · unfold LiveEntriesReturn
    rw [hsp, hstack]
    exact hlive
  · obtain ⟨j, hj, hret⟩ | ⟨-, hret⟩ := execRet_cases s <;> cases hret.symm.trans h
    · exact fun k hk => hlive k (hj ▸ Nat.lt_succ_of_lt hk)
    · exact hlive
  · obtain ⟨hroom, -⟩ | ⟨-, hcall⟩ := execCall_cases nnn s
    · obtain ⟨u, hu, -, hsp, hentries, -⟩ := callPushesReturnAddress nnn s hroom
      obtain ⟨hadd2, -⟩ := toNat_pc_add hpc
      cases hu.symm.trans h
      intro k hk
      rw [hentries k]
      split
      · omega
      · exact hlive k (by omega)
    · cases hcall.symm.trans h
      exact hlive

/-- The record of a failed transfer is true, where the failing address is the first one out of range (R242). -/
theorem recordTrue_of_transfer (s : State) (w : Word) (a : Addr) :
    RecordTrue (s.halt .memoryOutOfRange (some w) (some (max a.toNat 4096)))
      ⟨.memoryOutOfRange, s.pc, some w, some (max a.toNat 4096)⟩ :=
  ⟨rfl, ⟨_, rfl, le_max_right _ _, by omega⟩, nofun⟩

/-- An instruction that halts leaves a true record (60_exceptions.md R242 to R244, R247). -/
theorem exec_recordTrue {i : Instr} {s t : State} {r : HaltRecord} (hrun : s.run = .running)
    (h : exec i s = .next t) (hr : t.run = .halted r) : RecordTrue t r := by
  cases i with
  | ret =>
    obtain ⟨_, -, hret⟩ | ⟨hempty, hret⟩ := execRet_cases s <;> cases hret.symm.trans h
    · cases hrun.symm.trans hr
    · cases hr
      exact ⟨rfl, Fin.ext hempty, rfl, rfl⟩
  | call nnn =>
    obtain ⟨_, hcall⟩ | ⟨hfull, hcall⟩ := execCall_cases nnn s <;> cases hcall.symm.trans h
    · cases hrun.symm.trans hr
    · cases hr
      exact ⟨rfl, Fin.ext hfull, ⟨nnn, rfl⟩, rfl⟩
  | drw x y n =>
    obtain ⟨-, hdrw⟩ | ⟨-, -, hdrw⟩ := execDrw_cases x y n s <;> cases hdrw.symm.trans h
    · cases hrun.symm.trans hr
    · cases hr
      exact recordTrue_of_transfer s _ s.i
  | ldbcd x =>
    obtain ⟨-, hldbcd⟩ | ⟨-, hldbcd⟩ := execLdbcd_cases x s <;> cases hldbcd.symm.trans h
    · cases hrun.symm.trans hr
    · cases hr
      exact recordTrue_of_transfer _ _ s.i
  | ldir x =>
    obtain ⟨-, hldir⟩ | ⟨-, hldir⟩ := execLdir_cases x s <;> cases hldir.symm.trans h
    · cases hrun.symm.trans hr
    · cases hr
      exact recordTrue_of_transfer _ _ s.i
  | ldri x =>
    obtain ⟨-, hldri⟩ | ⟨-, hldri⟩ := execLdri_cases x s <;> cases hldri.symm.trans h
    · cases hrun.symm.trans hr
    · cases hr
      exact recordTrue_of_transfer _ _ s.i
  | ldkp x =>
    cases h
    cases hr
  | _ =>
    cases h
    cases hrun.symm.trans hr

/-- Every instruction leaves `started` alone (log 18). -/
theorem exec_started {i : Instr} {s t : State} (h : exec i s = .next t) : t.started = s.started := by
  obtain ⟨u, hu, ⟨-, hstarted⟩, -⟩ := everyInstructionAnswers i s
  obtain rfl : u = t := by simpa [hu] using h
  exact hstarted

/-- An instruction that waits leaves PC alone (44_keypad_and_timers.md R223). -/
theorem exec_pc_of_waiting {i : Instr} {s t : State} {d : Reg} (hrun : s.run = .running) (h : exec i s = .next t)
    (hd : t.run = .waitingForKey d) : t.pc = s.pc := by
  obtain ⟨x, rfl, -⟩ | ⟨-, hpc, -⟩ := onlySixInstructionsHalt i s t h (by simp [hrun, hd])
  · exact programCounterMoves _ s t h
  · exact hpc

/-- Every instruction that was fetched keeps the invariant. -/
theorem exec_keeps_invariant {i : Instr} {s t : State} (hinv : Invariant s) (hrun : s.run = .running)
    (hstarted : s.started = true) (hpc : s.pc.toNat ≤ 0xFFE) (h : exec i s = .next t) : Invariant t where
  memory := exec_keeps_wf hinv.memory h
  pc := exec_pc_le hinv hpc h
  stack := exec_liveEntriesReturn hinv.stack hpc h
  waiting d hd := by
    rw [exec_pc_of_waiting hrun h hd, exec_started h]
    exact ⟨hpc, hstarted⟩
  halted r hr := ⟨exec_recordTrue hrun h hr, (exec_started h).trans hstarted⟩

/-! ### One cycle -/

/-- The start of a cycle keeps the invariant. -/
theorem Invariant.start {s : State} (hinv : Invariant s) : Invariant s.start where
  memory := hinv.memory
  pc := hinv.pc
  stack := hinv.stack
  waiting d hd := ⟨(hinv.waiting d hd).1, rfl⟩
  halted r hr := ⟨(hinv.halted r hr).1, rfl⟩

/-- A halt after a start keeps the invariant when its record is true. -/
theorem Invariant.halt {s : State} {reason : HaltReason} {opcode : Option Word} {addr : Option Nat} (hinv : Invariant s)
    (hstarted : s.started = true) (htrue : RecordTrue (s.halt reason opcode addr) ⟨reason, s.pc, opcode, addr⟩) :
    Invariant (s.halt reason opcode addr) where
  memory := hinv.memory
  pc := hinv.pc
  stack := hinv.stack
  waiting _ hd := nomatch hd
  halted r hr := by
    cases hr
    exact ⟨htrue, hstarted⟩

/-- A cycle keeps the invariant: a fetch fault and an Unknown word leave a true record (60_exceptions.md R241, R242). -/
theorem cycle_keeps_invariant {s t : State} (hinv : Invariant s) (h : cycle s = .next t) : Invariant t := by
  by_cases hrun : s.run = .running
  · rw [cycle_of_running s hrun] at h
    obtain ⟨hpc, hc⟩ | ⟨-, w, -, hd, hc⟩ | ⟨hpc, w, i, -, -, hc⟩ := cycleRunning_cases s.start
    · cases hc.symm.trans h
      have hle := hinv.start.pc
      exact hinv.start.halt rfl ⟨rfl, ⟨_, rfl, le_max_right _ _, by omega⟩, fun _ => hpc⟩
    · cases hc.symm.trans h
      exact hinv.start.halt rfl ⟨rfl, ⟨w, rfl, hd⟩, rfl⟩
    · exact exec_keeps_invariant hinv.start hrun rfl hpc (hc.symm.trans h)
  · rw [cycle_of_not_running s hrun] at h
    cases h
    exact hinv

/-! ### One event -/

/-- The event `reset` establishes Running, PC 0x200 and the empty stack, and keeps Memory (70_reset_and_hazards.md R281). -/
theorem Invariant.resetEvent {s : State} (hinv : Invariant s) : Invariant s.resetEvent where
  memory := hinv.memory
  pc := show (0x200 : Word).toNat ≤ 0x10FE by decide
  stack _ hk := absurd hk (Nat.not_lt_zero _)
  waiting _ hd := nomatch hd
  halted _ hr := nomatch hr

/-- A new memory in its canonical form keeps the invariant. -/
theorem Invariant.withMem {s : State} {m : List Host.Cell} (hinv : Invariant s) (hwf : Memory.wf m = true) :
    Invariant { s with mem := m } :=
  ⟨hwf, hinv.pc, hinv.stack, hinv.waiting, hinv.halted⟩

/-- A tick keeps the invariant, which does not speak of the timers. -/
theorem Invariant.tick {s : State} (hinv : Invariant s) : Invariant s.tick := by
  unfold State.tick
  split
  · exact hinv
  · exact ⟨hinv.memory, hinv.pc, hinv.stack, hinv.waiting, hinv.halted⟩
  · exact ⟨hinv.memory, hinv.pc, hinv.stack, hinv.waiting, hinv.halted⟩

/-- A key event keeps the invariant: the LDKP that a wait goes on behind lies in memory (44_keypad_and_timers.md R224). -/
theorem Invariant.keyEvent {s : State} (hinv : Invariant s) (k : BitVec 4) : Invariant (s.keyEvent k) := by
  unfold State.keyEvent
  split
  · next d hd =>
    have hnext := (toNat_pc_add (hinv.waiting d hd).1).1
    have hpc := (hinv.waiting d hd).1
    refine ⟨hinv.memory, ?_, hinv.stack, nofun, nofun⟩
    show (s.pc + 2).toNat ≤ 0x10FE
    omega
  · exact hinv
  · exact hinv

/-- Every event keeps the invariant. -/
theorem event_keeps_invariant {e : Event} {s t : State} (hinv : Invariant s) (h : event e s = .next t) :
    Invariant t := by
  cases e with
  | powerOn =>
    cases h
    exact hinv.resetEvent.withMem rfl
  | reset =>
    cases h
    exact hinv.resetEvent
  | cycle => exact cycle_keeps_invariant hinv h
  | tick =>
    cases h
    exact hinv.tick
  | keyEvent k =>
    cases h
    exact hinv.keyEvent k
  | hostWrite addr v =>
    rw [State.hostWrite_next h]
    exact hinv.withMem (wf_hostPoke s.mem addr v hinv.memory)

/-! ### One step -/

/-- Taking the next choice keeps the invariant, which does not speak of the choices. -/
theorem Invariant.takeEvent {s : State} (hinv : Invariant s) : Invariant (takeEvent s).2 := by
  unfold Machine.takeEvent
  split
  · exact hinv
  · exact ⟨hinv.memory, hinv.pc, hinv.stack, hinv.waiting, hinv.halted⟩

/-- Settles O14: a step is an event on the state left when the choice has been taken. -/
theorem stepKeepsInvariant : Obligations.StepKeepsInvariant := by
  unfold Obligations.StepKeepsInvariant
  exact fun s t hinv h => event_keeps_invariant hinv.takeEvent h

/-- Settles O15: empty memory, PC 0x200, the empty stack, Running. -/
theorem resetMeetsInvariant : Obligations.ResetMeetsInvariant := by
  unfold Obligations.ResetMeetsInvariant
  exact ⟨wf_reset, by decide, fun _ hk => absurd hk (Nat.not_lt_zero _), nofun, nofun⟩

end Sys2Proof.Machine
end

section
/-! PROOF. The memory transfers (42_index_and_memory.md R183 to R186; 43_display.md R205): where their bytes lie in
memory, and where they run past 4095 and halt (60_exceptions.md R242). First what a run of byte writes leaves in memory. -/

namespace Sys2Proof.Machine

/-! ### A run of byte writes -/

/-- A byte of a run of byte writes reads back, where its address is in range (R186; D7, log 15). -/
theorem memRead_storeBytes_of_lt (m : List Host.Cell) {a k : Nat} {bs : List Byte} (hk : k < bs.length)
    (ha : a + k ≤ 4095) : memRead (storeBytes m a bs).1 (a + k) = .ok bs[k] := by
  rw [memRead_valid _ (by omega), peek_storeBytes, dif_pos ⟨by omega, by omega, by omega⟩]
  simp

/-- Every byte outside a run of byte writes reads as before (20_memory.md R67). -/
theorem memRead_storeBytes_outside (m : List Host.Cell) {a b : Nat} {bs : List Byte}
    (h : b < a ∨ a + bs.length ≤ b) : memRead (storeBytes m a bs).1 b = memRead m b :=
  memRead_congr (by rw [peek_storeBytes, dif_neg (by omega)])

/-- After LDIR's stores the byte at I + k reads V[k], where its address is in range (R184; D7, log 15). -/
theorem memRead_storeBytes_reg {x r : Reg} {s : State} (hr : r.toNat ≤ x.toNat) (ha : s.base + r.toNat ≤ 4095) :
    memRead (storeBytes s.mem s.base (s.regsUpTo x)).1 (s.base + r.toNat) = .ok (s.reg r) := by
  have hlen := length_regsUpTo s x
  rw [memRead_storeBytes_of_lt _ (by omega) ha, getElem_regsUpTo s x _ r.isLt]
  rfl

/-- LDIR's stores leave every byte outside I..I + x as it was (R184). -/
theorem memRead_storeBytes_outside_regs {x : Reg} {s : State} {b : Nat} (h : b < s.base ∨ s.base + (x.toNat + 1) ≤ b) :
    memRead (storeBytes s.mem s.base (s.regsUpTo x)).1 b = memRead s.mem b :=
  memRead_storeBytes_outside s.mem (by rwa [length_regsUpTo])

/-! ### LDBCD -/

/-- The three digits of a byte as numbers (R183). -/
theorem bcd_digits_toNat (a : Byte) :
    (BitVec.ofNat 8 (a.toNat / 100)).toNat = a.toNat / 100 ∧
    (BitVec.ofNat 8 (a.toNat / 10 % 10)).toNat = a.toNat / 10 % 10 ∧
    (BitVec.ofNat 8 (a.toNat % 10)).toNat = a.toNat % 10 := by
  simp only [BitVec.toNat_ofNat]
  omega

/-- After LDBCD's stores the byte at I + k reads the k-th digit, where its address is in range (R183; D7, log 15). -/
theorem memRead_storeBytes_digit {x : Reg} {s : State} {k : Nat} (hk : k < 3) (ha : s.base + k ≤ 4095) :
    memRead (storeBytes s.mem s.base (bcdDigits (s.reg x))).1 (s.base + k) = .ok (bcdDigits (s.reg x))[k] :=
  memRead_storeBytes_of_lt s.mem hk ha

/-- LDBCD's stores leave every byte outside I, I + 1, I + 2 as it was (R183). -/
theorem memRead_storeBytes_outside_digits {x : Reg} {s : State} {b : Nat} (h : b < s.base ∨ s.base + 3 ≤ b) :
    memRead (storeBytes s.mem s.base (bcdDigits (s.reg x))).1 b = memRead s.mem b :=
  memRead_storeBytes_outside s.mem h

/-- LDBCD where its bytes lie in memory makes all its stores (R183). -/
theorem exec_ldbcd_of_fits {x : Reg} {s : State} (h : s.base + 2 ≤ 4095) :
    exec (.ldbcd x) s = .next { s with mem := (storeBytes s.mem s.base (bcdDigits (s.reg x))).1 }.advance := by
  obtain ⟨-, hexec⟩ | ⟨hpast, -⟩ := execLdbcd_cases x s
  · exact hexec
  · omega

/-- Settles O40: the digits stored read back, and they are the byte's. -/
theorem ldbcdStoresDigits : Obligations.LdbcdStoresDigits := by
  unfold Obligations.LdbcdStoresDigits
  intro x s h
  obtain ⟨hhundreds, htens, hones⟩ := bcd_digits_toNat (s.reg x)
  refine ⟨_, _, _, _, exec_ldbcd_of_fits h,
    memRead_storeBytes_digit (k := 0) (by decide) (by omega),
    memRead_storeBytes_digit (k := 1) (by decide) (by omega),
    memRead_storeBytes_digit (k := 2) (by decide) (by omega),
    ?sum, ?tens, ?ones, fun b => memRead_storeBytes_outside_digits, rfl, rfl, s.advance_onlyRegsAndPc⟩
  all_goals simp only [bcdDigits, List.getElem_cons_succ, List.getElem_cons_zero, hhundreds, htens, hones]
  all_goals omega

/-! ### LDIR and LDRI -/

/-- Settles O41: the registers stored read back. -/
theorem ldirStoresRegisters : Obligations.LdirStoresRegisters := by
  unfold Obligations.LdirStoresRegisters
  exact fun x s h => ⟨_, exec_ldir_of_fits h, fun r hr => memRead_storeBytes_reg hr (by omega),
    fun b => memRead_storeBytes_outside_regs, rfl, rfl, s.advance_onlyRegsAndPc⟩

/-- LDRI gives V[k] the byte that a read at I + k gives, where its address is in range (R185; D7, log 15). -/
theorem memRead_eq_getElem_loadRegs {x r : Reg} {s : State} (hr : r.toNat ≤ x.toNat) (ha : s.base + r.toNat ≤ 4095) :
    memRead s.mem (s.base + r.toNat) = .ok (loadRegs s.mem s.base 0 (x.toNat + 1) s.v).1[r.toNat] := by
  have hread := memRead_valid s.mem (Nat.lt_succ_of_le ha)
  rw [hread, getElem_loadRegs_of_memRead hr hread]

/-- Settles O42: each register named is the byte read, and the others are kept. -/
theorem ldriLoadsRegisters : Obligations.LdriLoadsRegisters := by
  unfold Obligations.LdriLoadsRegisters
  exact fun x s h => ⟨_, exec_ldri_of_fits h, fun r hr => memRead_eq_getElem_loadRegs hr (by omega),
    fun r hr => getElem_loadRegs_above s hr, rfl, rfl, s.advance_onlyRegsAndPc⟩

/-! ### Past 4095 -/

/-- A transfer that begins in memory fails at 0x1000, the first address out of range (R242). -/
theorem State.max_base (s : State) : max s.base 4096 = 0x1000 :=
  max_eq_right (Nat.le_of_lt s.i.isLt)

/-- LDBCD past 4095 halts after the stores that fit (R183). -/
theorem exec_ldbcd_past {x : Reg} {s : State} (h : 4095 < s.base + 2) :
    exec (.ldbcd x) s = .next ({ s with mem := (storeBytes s.mem s.base (bcdDigits (s.reg x))).1 }.halt
      .memoryOutOfRange (some (encode (.ldbcd x))) (some 0x1000)) := by
  obtain ⟨hfits, -⟩ | ⟨-, hexec⟩ := execLdbcd_cases x s
  · omega
  · rwa [s.max_base] at hexec

/-- LDIR past 4095 halts after the stores that fit (R184). -/
theorem exec_ldir_past {x : Reg} {s : State} (h : 4095 < s.base + x.toNat) :
    exec (.ldir x) s = .next ({ s with mem := (storeBytes s.mem s.base (s.regsUpTo x)).1 }.halt
      .memoryOutOfRange (some (encode (.ldir x))) (some 0x1000)) := by
  obtain ⟨hfits, -⟩ | ⟨-, hexec⟩ := execLdir_cases x s
  · omega
  · rwa [s.max_base] at hexec

/-- LDRI past 4095 halts after the loads that fit (R185). -/
theorem exec_ldri_past {x : Reg} {s : State} (h : 4095 < s.base + x.toNat) :
    exec (.ldri x) s = .next ({ s with v := (loadRegs s.mem s.base 0 (x.toNat + 1) s.v).1 }.halt
      .memoryOutOfRange (some (encode (.ldri x))) (some 0x1000)) := by
  obtain ⟨hfits, -⟩ | ⟨-, hexec⟩ := execLdri_cases x s
  · omega
  · rwa [s.max_base] at hexec

/-- DRW where its bytes lie in memory, or reads none, draws them (43_display.md R205). -/
theorem exec_drw_of_fits {x y : Reg} {n : BitVec 4} {s : State} (h : n = 0 ∨ s.base + n.toNat ≤ 4096) :
    exec (.drw x y n) s =
      .next (s.drawAt x y ((List.range n.toNat).map (fun k => peek s.mem (s.base + k)))).advance := by
  obtain ⟨-, hexec⟩ | ⟨hn, hpast, -⟩ := execDrw_cases x y n s
  · exact hexec
  · obtain rfl | hfits := h
    · exact absurd rfl hn
    · omega

/-- DRW past 4095 halts with nothing changed (43_display.md R205). -/
theorem exec_drw_past {x y : Reg} {n : BitVec 4} {s : State} (hn : n ≠ 0) (h : 4096 < s.base + n.toNat) :
    exec (.drw x y n) s =
      .next (s.halt .memoryOutOfRange (some (encode (.drw x y n))) (some 0x1000)) := by
  obtain ⟨hzero | hfits, -⟩ | ⟨-, -, hexec⟩ := execDrw_cases x y n s
  · exact absurd (BitVec.eq_of_toNat_eq hzero) hn
  · omega
  · rwa [s.max_base] at hexec

/-- Settles O43: the halt keeps the stores made, and a store in range was made. -/
theorem storesPastMemoryHalt : Obligations.StoresPastMemoryHalt := by
  unfold Obligations.StoresPastMemoryHalt
  refine ⟨fun x s h => ⟨_, exec_ldbcd_past h, rfl, rfl, ?hundreds, fun hbase => ?tens,
    fun b => memRead_storeBytes_outside_digits, rfl, s.onlyRegsAndPc_self⟩, fun x s h => ?ldir⟩
  case hundreds =>
    exact memRead_storeBytes_digit (k := 0) (by decide) (Nat.le_of_lt_succ s.i.isLt)
  case tens =>
    have haddr : 0xFFF = s.base + 1 := by omega
    rw [haddr]
    exact memRead_storeBytes_digit (k := 1) (by decide) (by omega)
  case ldir =>
    exact ⟨_, exec_ldir_past h, rfl, rfl, fun r => memRead_storeBytes_reg, fun b => memRead_storeBytes_outside_regs,
      rfl, s.onlyRegsAndPc_self⟩

/-- LDRI's loads leave a register whose byte lies past 4095 as it is (R185; D7, log 15). -/
theorem getElem_loadRegs_past (s : State) {x r : Reg} (h : 4095 < s.base + r.toNat) :
    (loadRegs s.mem s.base 0 (x.toNat + 1) s.v).1[r.toNat] = s.reg r := by
  rw [getElem_loadRegs, if_neg (by omega)]
  rfl

/-- Settles O44: the halt keeps the loads made; DRW's halt comes before any change. -/
theorem loadsPastMemoryHalt : Obligations.LoadsPastMemoryHalt := by
  unfold Obligations.LoadsPastMemoryHalt
  exact ⟨fun x s h => ⟨_, exec_ldri_past h, rfl, rfl, fun r => memRead_eq_getElem_loadRegs,
    fun r hr => hr.elim (getElem_loadRegs_above s) (getElem_loadRegs_past s), rfl,
    s.onlyRegsAndPc_self⟩, fun x y n s => exec_drw_past⟩

end Sys2Proof.Machine
end

section
/-! PROOF. The step, the cycle and the events (00_scope.md R13; 40_cycle_and_control.md R120 to R123; 10_state.md R36 to
R41). First the cycles that run no instruction; then a placed instruction; then the other events; then many in order. -/

namespace Sys2Proof.Machine

/-! ### Cycles that run no instruction -/

/-- A cycle on an Unknown word halts with InvalidOpcode (R120, R133). -/
theorem cycle_of_unknown {s : State} {w : Word} (hrun : s.run = .running) (hf : s.fetch = .ok w)
    (hd : decode w = none) : cycle s = .next (s.start.halt .invalidOpcode (some w) none) := by
  rw [cycle_of_running s hrun]
  simp [cycleRunning, hf, hd]

/-- The first address out of range of a fetch beyond 0xFFE: PC itself, but for the PC whose first byte is the last one. -/
theorem max_pc_of_gt {n : Nat} (h : 0xFFE < n) : max n 4096 = if n = 0xFFF then 0x1000 else n := by
  split <;> omega

/-- A cycle beyond 0xFFE halts with MemoryOutOfRange (R121). -/
theorem cycle_of_fetch_beyond {s : State} (hrun : s.run = .running) (hpc : 0xFFE < s.pc.toNat) :
    cycle s = .next (s.start.halt .memoryOutOfRange none
      (some (if s.pc.toNat = 0xFFF then 0x1000 else s.pc.toNat))) := by
  rw [cycle_of_running s hrun, ← max_pc_of_gt hpc]
  simp [cycleRunning, fetch_of_gt s hpc]

/-- Settles O10: the two bytes are the word fetched, which decodes to nothing. -/
theorem unknownWordHalts : Obligations.UnknownWordHalts := by
  unfold Obligations.UnknownWordHalts
  intro s b0 b1 hrun h0 h1 hunknown
  have hfetch : s.fetch = .ok (wordOfBytes b0 b1) := fetch_of_memRead h0 h1
  refine ⟨fun hnil => ?_, fun rest hcons => ?_⟩
  · rw [step_nil s hnil]
    exact cycle_of_unknown hrun hfetch hunknown
  · rw [step_cons s .cycle rest hcons]
    exact cycle_of_unknown (s := { s with events := rest }) hrun hfetch hunknown

/-- Settles O11, by the cycle beyond memory. -/
theorem fetchBeyondMemoryHalts : Obligations.FetchBeyondMemoryHalts := by
  unfold Obligations.FetchBeyondMemoryHalts
  intro s hrun hpc
  refine ⟨fun hnil => ?_, fun rest hcons => ?_⟩
  · rw [step_nil s hnil]
    exact cycle_of_fetch_beyond hrun hpc
  · rw [step_cons s .cycle rest hcons]
    exact cycle_of_fetch_beyond (s := { s with events := rest }) hrun hpc

/-- Settles O12, by the cycle outside Running. -/
theorem cycleOutsideRunningIsNoOp : Obligations.CycleOutsideRunningIsNoOp := by
  unfold Obligations.CycleOutsideRunningIsNoOp
  intro s hrun
  refine ⟨cycle_of_not_running s hrun, fun hnil => ?_, fun rest hcons => ?_⟩
  · rw [step_nil s hnil, cycle_of_not_running s hrun]
  · rw [step_cons s .cycle rest hcons]
    exact cycle_of_not_running { s with events := rest } hrun

/-! ### A placed instruction -/

/-- A word placed where both of its bytes exist is stored high byte first (log 23). -/
theorem placeWord_valid (m : List Host.Cell) {a : Nat} (w : Word) (h : a ≤ 4094) :
    placeWord m a w = poke (poke m a (highByte w)) (a + 1) (lowByte w) := by
  rw [placeWord, memWriteWord_valid m w h]

/-- The instruction placed at PC is the word the next fetch gives (20_memory.md R74). -/
theorem fetch_withFetchWord {s : State} (w : Word) (h : s.pc.toNat ≤ 0xFFE) :
    (s.withFetchWord 16 w.toNat).fetch = .ok w := by
  rw [State.fetch, State.withFetchWord, tableWord_toNat, placeWord_valid _ w h]
  exact memReadWord_poke_poke s.mem w h

/-- Settles O9: the placed word is fetched and decodes to its instruction; placing it writes two bytes. -/
theorem placedInstructionRuns : Obligations.PlacedInstructionRuns := by
  unfold Obligations.PlacedInstructionRuns
  intro s i h
  refine ⟨?runs, fun b hb => ?kept⟩
  case runs =>
    rw [step_nil _ rfl]
    exact cycle_of_fetched rfl (fetch_withFetchWord (encode i) h) (decode_encode i)
  case kept =>
    rw [State.withFetchWord, tableWord_toNat, placeWord_valid _ _ h]
    rw [memRead_poke_ne _ _ (by omega), memRead_poke_ne _ _ (by omega)]

/-! ### The events other than a cycle -/

/-- Settles O17: what the two events leave is what `State.resetEvent` and `State.powerOn` set. -/
theorem powerOnAndResetEvents : Obligations.PowerOnAndResetEvents := by
  unfold Obligations.PowerOnAndResetEvents
  rintro s e rest hcons (rfl | rfl)
  · exact ⟨_, step_cons s _ rest hcons, State.reg_powerOn _, rfl, rfl, rfl, rfl, rfl, rfl, pixel_clearScreen, rfl, rfl,
      fun _ _ ha => memRead_valid [] (Nat.lt_succ_of_le ha), nofun⟩
  · exact ⟨_, step_cons s _ rest hcons, State.reg_resetEvent _, rfl, rfl, rfl, rfl, rfl, rfl, pixel_clearScreen, rfl,
      rfl, nofun, fun _ _ => rfl⟩

/-- A tick when halted does nothing (D9, log 14). -/
theorem State.tick_of_halted {s : State} {r : HaltRecord} (h : s.run = .halted r) : s.tick = s := by
  simp [State.tick, h]

/-- A tick outside Halted counts both timers down (44_keypad_and_timers.md R231). -/
theorem State.tick_of_not_halted {s : State} (h : ∀ r, s.run ≠ .halted r) :
    s.tick = { s with dt := countDown s.dt, st := countDown s.st } := by
  unfold State.tick
  split
  · next r hr => exact absurd hr (h r)
  · rfl
  · rfl

/-- Settles O54: the tick in its two cases. -/
theorem tickCountsDown : Obligations.TickCountsDown := by
  unfold Obligations.TickCountsDown
  refine fun s rest hcons => ⟨fun hrun => ?counts, fun r hr => ?halted⟩
  case counts =>
    refine ⟨{ s with events := rest, dt := countDown s.dt, st := countDown s.st }, ?_, countDown_toNat s.dt,
      countDown_toNat s.st, rfl⟩
    rw [step_cons s .tick rest hcons]
    exact congrArg Host.Outcome.next (State.tick_of_not_halted (s := { s with events := rest }) hrun)
  case halted =>
    rw [step_cons s .tick rest hcons]
    exact congrArg Host.Outcome.next (State.tick_of_halted (s := { s with events := rest }) hr)

/-- A key event in a wait (44_keypad_and_timers.md R224). -/
theorem State.keyEvent_of_waiting {s : State} {d : Reg} (k : BitVec 4) (h : s.run = .waitingForKey d) :
    s.keyEvent k = { (s.setReg d (k.setWidth 8)).advance with run := .running } := by
  simp [State.keyEvent, h]

/-- Settles O52: in a wait the key event is a register write and the advance, outside it nothing. -/
theorem keyEventEndsWait : Obligations.KeyEventEndsWait := by
  unfold Obligations.KeyEventEndsWait
  refine fun s k rest hcons => ⟨fun d hd => ?ends, fun hrun => ?dropped⟩
  case ends =>
    refine ⟨{ (({ s with events := rest } : State).setReg d (k.setWidth 8)).advance with run := .running }, ?_, ?_, rfl,
      rfl, rfl, rfl, s.advance_setReg_onlyRegsAndPc d (k.setWidth 8)⟩
    · rw [step_cons s _ rest hcons]
      exact congrArg Host.Outcome.next (State.keyEvent_of_waiting k hd)
    · calc _ = (k.setWidth 8).toNat := congrArg BitVec.toNat (s.reg_setReg_same d _)
        _ = k.toNat := BitVec.toNat_setWidth_of_le (by decide)
  case dropped =>
    rw [step_cons s _ rest hcons]
    exact congrArg Host.Outcome.next (State.keyEvent_of_not_waiting (s := { s with events := rest }) k hrun)

/-! ### The write port -/

/-- A request in range stores its byte (10_state.md R41). -/
theorem hostPoke_of_valid (m : List Host.Cell) {a : Int} (v : Int) (h0 : 0 ≤ a) (h : a ≤ 4095) :
    hostPoke m a v = poke m a.toNat (BitVec.ofInt 8 v) := by
  rw [hostPoke, hostWritePort_of_valid m a v h0 h]

/-- A request out of range stores nothing (R41, 60_exceptions.md R245). -/
theorem hostPoke_of_invalid (m : List Host.Cell) {a : Int} (v : Int) (h : a < 0 ∨ 4095 < a) : hostPoke m a v = m := by
  rw [hostPoke, hostWritePort_of_invalid m a v h]

/-- The byte stored for an integer is the integer modulo 256 (R41). -/
theorem toNat_ofInt_byte (v : Int) : ((BitVec.ofInt 8 v).toNat : Int) = v % 256 := by
  rw [BitVec.toNat_ofInt]
  exact Int.toNat_of_nonneg (Int.emod_nonneg v (by decide))

/-- A write of the host before the first cycle (70_reset_and_hazards.md R290). -/
theorem step_hostWrite_of_not_started {s : State} {a v : Int} {rest : List Event}
    (hcons : s.events = .hostWrite a v :: rest) (hs : s.started = false) :
    step s = .next { s with events := rest, mem := hostPoke s.mem a v } := by
  rw [step_cons s _ rest hcons]
  simp [event, State.hostWrite, hs]

/-- A write of the host after the first cycle has no move (R290, U12). -/
theorem step_hostWrite_of_started {s : State} {a v : Int} {rest : List Event}
    (hcons : s.events = .hostWrite a v :: rest) (hs : s.started = true) : step s = .fault .hostWriteAfterStart := by
  rw [step_cons s _ rest hcons]
  simp [event, State.hostWrite, hs]

/-- A write before the first cycle that the port accepts returns nothing to the host (R41). -/
theorem stepRefusal_of_accepted {s : State} {a v : Int} {rest : List Event} {m : List Host.Cell}
    (hcons : s.events = .hostWrite a v :: rest) (hs : s.started = false) (hport : hostWritePort s.mem a v = .ok m) :
    stepRefusal s = none := by
  simp [stepRefusal, takeEvent, hcons, eventRefusal, hs, hport]

/-- A write before the first cycle that the port refuses returns its refusal to the host (60_exceptions.md R245). -/
theorem stepRefusal_of_refused {s : State} {a v : Int} {rest : List Event} {r : PortError}
    (hcons : s.events = .hostWrite a v :: rest) (hs : s.started = false) (hport : hostWritePort s.mem a v = .error r) :
    stepRefusal s = some r := by
  simp [stepRefusal, takeEvent, hcons, eventRefusal, hs, hport]

/-- Settles O55: the write port in range and out of range, and the event that has no move. -/
theorem hostWriteBeforeStart : Obligations.HostWriteBeforeStart := by
  unfold Obligations.HostWriteBeforeStart
  refine fun s a v rest hcons => ⟨fun hs h0 h => ⟨stepRefusal_of_accepted hcons hs (hostWritePort_of_valid _ a v h0 h),
    _, _, step_hostWrite_of_not_started hcons hs, ?stored, toNat_ofInt_byte v, fun b hb => ?kept, rfl⟩,
    fun hs h => ⟨stepRefusal_of_refused hcons hs (hostWritePort_of_invalid _ a v h), ?unchanged⟩,
    step_hostWrite_of_started hcons⟩
  case stored =>
    rw [hostPoke_of_valid _ v h0 h]
    exact memRead_poke_same _ _ (by omega)
  case kept =>
    rw [hostPoke_of_valid _ v h0 h]
    exact memRead_poke_ne _ _ (by omega)
  case unchanged =>
    rw [step_hostWrite_of_not_started hcons hs, hostPoke_of_invalid _ v h]

/-! ### Halted is terminal -/

/-- Taking the next choice leaves `started` alone. -/
@[simp] theorem takeEvent_started (s : State) : (takeEvent s).2.started = s.started := by
  unfold takeEvent
  split <;> rfl

/-- An event that is neither power_on nor reset leaves a halted machine as it was, after a start (60_exceptions.md R249). -/
theorem event_of_halted {e : Event} {s t : State} {r : HaltRecord} (hr : s.run = .halted r) (hs : s.started = true)
    (h : event e s = .next t) (hp : e ≠ .powerOn) (hz : e ≠ .reset) : t = s := by
  cases e with
  | powerOn => exact absurd rfl hp
  | reset => exact absurd rfl hz
  | cycle =>
    rw [event, cycle_of_not_running s (by simp [hr])] at h
    exact (Host.Outcome.next.inj h).symm
  | tick =>
    rw [event, State.tick_of_halted hr] at h
    exact (Host.Outcome.next.inj h).symm
  | keyEvent k =>
    rw [event, State.keyEvent_of_not_waiting k (by simp [hr])] at h
    exact (Host.Outcome.next.inj h).symm
  | hostWrite addr v => simp [event, State.hostWrite, hs] at h

/-- Settles O19: `event_of_halted` on the state left when the choice has been taken. -/
theorem haltedIsTerminal : Obligations.HaltedIsTerminal := by
  unfold Obligations.HaltedIsTerminal
  exact fun s t r hr hs h => event_of_halted (by rw [takeEvent_run, hr]) (by rw [takeEvent_started, hs]) h

/-! ### Events in order

No event looks at the choices that remain: an event on a state with other choices gives the same answer, with those
choices in it. -/

/-- The state with other choices of the environment. -/
def State.withEvents (s : State) (es : List Event) : State := { s with events := es }

/-- The answer with other choices of the environment in its next state. -/
def withEventsNext (es : List Event) : Host.Outcome State Fault Refusal → Host.Outcome State Fault Refusal
  | .next t => .next (t.withEvents es)
  | .fault r => .fault r
  | .refused r => .refused r

/-- A transfer's end does not look at the choices. -/
theorem State.afterTransfer_withEvents (s : State) (i : Instr) (failed : Option Nat) (es : List Event) :
    (s.withEvents es).afterTransfer i failed = (s.afterTransfer i failed).withEvents es := by
  cases failed <;> rfl

/-- No instruction looks at the choices. -/
theorem exec_withEvents (i : Instr) (s : State) (es : List Event) :
    exec i (s.withEvents es) = withEventsNext es (exec i s) := by
  cases i with
  | ret =>
    obtain ⟨k, hk, -⟩ | ⟨hempty, -⟩ := execRet_cases s
    · rw [exec_ret_of_entry hk]
      exact exec_ret_of_entry (s := s.withEvents es) hk
    · rw [exec_ret_of_empty hempty]
      exact exec_ret_of_empty (s := s.withEvents es) hempty
  | call nnn =>
    obtain ⟨hroom, -⟩ | ⟨hfull, -⟩ := execCall_cases nnn s
    · rw [exec_call_of_room nnn hroom]
      exact exec_call_of_room nnn (s := s.withEvents es) hroom
    · rw [exec_call_of_full nnn hfull]
      exact exec_call_of_full nnn (s := s.withEvents es) hfull
  | drw x y n =>
    by_cases hfits : n = 0 ∨ s.base + n.toNat ≤ 4096
    · rw [exec_drw_of_fits hfits]
      exact exec_drw_of_fits (s := s.withEvents es) hfits
    · obtain ⟨hn, hpast⟩ := not_or.1 hfits
      rw [exec_drw_past (s := s) hn (by omega)]
      exact exec_drw_past (s := s.withEvents es) hn (Nat.lt_of_not_le hpast)
  | ldbcd x =>
    exact congrArg Host.Outcome.next
      (State.afterTransfer_withEvents { s with mem := (storeBytes s.mem s.base (bcdDigits (s.reg x))).1 } _ _ es)
  | ldir x =>
    exact congrArg Host.Outcome.next
      (State.afterTransfer_withEvents { s with mem := (storeBytes s.mem s.base (s.regsUpTo x)).1 } _ _ es)
  | ldri x =>
    exact congrArg Host.Outcome.next
      (State.afterTransfer_withEvents { s with v := (loadRegs s.mem s.base 0 (x.toNat + 1) s.v).1 } _ _ es)
  | _ => rfl

/-- No cycle in Running looks at the choices. -/
theorem cycleRunning_withEvents (s : State) (es : List Event) :
    cycleRunning (s.withEvents es) = withEventsNext es (cycleRunning s) := by
  have hfetch : (s.withEvents es).fetch = s.fetch := rfl
  simp only [cycleRunning, hfetch]
  cases s.fetch with
  | error a => rfl
  | ok w =>
    cases hd : decode w with
    | none =>
      simp only [hd]
      rfl
    | some i =>
      simp only [hd]
      exact exec_withEvents i s es

/-- A tick does not look at the choices. -/
theorem State.tick_withEvents (s : State) (es : List Event) : (s.withEvents es).tick = s.tick.withEvents es := by
  by_cases hhalted : ∃ r, s.run = .halted r
  · obtain ⟨r, hr⟩ := hhalted
    rw [State.tick_of_halted hr, State.tick_of_halted (s := s.withEvents es) hr]
  · have hrun := not_exists.1 hhalted
    rw [State.tick_of_not_halted hrun, State.tick_of_not_halted (s := s.withEvents es) hrun]
    rfl

/-- A key event does not look at the choices. -/
theorem State.keyEvent_withEvents (s : State) (k : BitVec 4) (es : List Event) :
    (s.withEvents es).keyEvent k = (s.keyEvent k).withEvents es := by
  by_cases hwait : ∃ d, s.run = .waitingForKey d
  · obtain ⟨d, hd⟩ := hwait
    rw [State.keyEvent_of_waiting k hd, State.keyEvent_of_waiting (s := s.withEvents es) k hd]
    rfl
  · have hrun := not_exists.1 hwait
    rw [State.keyEvent_of_not_waiting k hrun, State.keyEvent_of_not_waiting (s := s.withEvents es) k hrun]

/-- A write of the host does not look at the choices. -/
theorem State.hostWrite_withEvents (s : State) (addr v : Int) (es : List Event) :
    (s.withEvents es).hostWrite addr v = withEventsNext es (s.hostWrite addr v) := by
  cases hs : s.started <;> simp [State.hostWrite, State.withEvents, withEventsNext, hs]

/-- No event looks at the choices that remain. -/
theorem event_withEvents (e : Event) (s : State) (es : List Event) :
    event e (s.withEvents es) = withEventsNext es (event e s) := by
  cases e with
  | powerOn | reset => rfl
  | cycle =>
    by_cases hrun : s.run = .running
    · rw [event, event, cycle_of_running s hrun, cycle_of_running (s.withEvents es) hrun]
      exact cycleRunning_withEvents s.start es
    · rw [event, event, cycle_of_not_running s hrun, cycle_of_not_running (s.withEvents es) hrun]
      rfl
  | tick => exact congrArg Host.Outcome.next (s.tick_withEvents es)
  | keyEvent k => exact congrArg Host.Outcome.next (s.keyEvent_withEvents k es)
  | hostWrite addr v => exact s.hostWrite_withEvents addr v es

/-- As many steps as there are choices give what the events give one after another. -/
theorem run_withEvents (es : List Event) (s : State) :
    core.run es.length (s.withEvents es) = runEvents es (s.withEvents []) := by
  induction es generalizing s with
  | nil => rfl
  | cons e es ih =>
    have hstep : core.step (s.withEvents (e :: es)) = withEventsNext es (event e (s.withEvents [])) :=
      (step_cons _ e es rfl).trans (event_withEvents e (s.withEvents []) es)
    have hnone : event e (s.withEvents []) = withEventsNext [] (event e (s.withEvents [])) :=
      event_withEvents e (s.withEvents []) []
    simp only [List.length_cons, Host.Core.run, runEvents, hstep]
    cases hanswer : event e (s.withEvents []) with
    | next t =>
      rw [hanswer] at hnone
      have ht : t = t.withEvents [] := Host.Outcome.next.inj hnone
      exact (ih t).trans (congrArg (runEvents es) ht.symm)
    | fault r => rfl
    | refused r => rfl

/-- Settles O13, by induction on the choices. -/
theorem stepsCarryOutEventsInOrder : Obligations.StepsCarryOutEventsInOrder := by
  unfold Obligations.StepsCarryOutEventsInOrder
  exact run_withEvents

end Sys2Proof.Machine
end

section
/-! PROOF. DRW where its bytes lie in memory (43_display.md R202 to R206): the cells its rows set are those of
`SpriteSets`, and the flag is the collision of the whole sprite. -/

namespace Sys2Proof.Machine

/-- The bytes DRW reads: the `n` bytes of memory from address `a` on (R205). -/
def spriteRows (m : List Host.Cell) (a n : Nat) : List Byte := (List.range n).map fun k => peek m (a + k)

/-- The rows read from memory set the cells of `SpriteSets` (R202). -/
theorem rowsSet_spriteRows_iff (m : List Host.Cell) (a n x0 y0 : Nat) (x : Fin 64) (y : Fin 32) :
    rowsSet x0 y0 0 (spriteRows m a n) x y = true ↔ SpriteSets m a n x0 y0 x y := by
  rw [rowsSet_iff]
  refine exists_congr fun r => exists_congr fun c => ?_
  rw [← exists_prop]
  simp only [spriteRows, spriteBit, Fin.ext_iff, wrapColumn_val, wrapRow_val, Nat.zero_add, List.length_map,
    List.length_range, List.getElem_map, List.getElem_range]

/-- DRW reads at most 15 bytes. -/
theorem length_spriteRows_le (m : List Host.Cell) (a : Nat) (n : BitVec 4) :
    (spriteRows m a n.toNat).length ≤ 32 := by
  simp only [spriteRows, List.length_map, List.length_range]
  omega

/-- A cell is set after the drawing exactly when it was set and the sprite has no bit for it, or the other way round
(R206). -/
theorem pixel_drawSprite_spriteRows (m : List Host.Cell) (a : Nat) (n : BitVec 4) (x0 y0 : Nat) (fb : Screen) (x : Fin 64)
    (y : Fin 32) : pixel (drawSprite x0 y0 (spriteRows m a n.toNat) fb).1 x y = true ↔
      (pixel fb x y = true ↔ ¬ SpriteSets m a n.toNat x0 y0 x y) := by
  rw [pixel_drawSprite x0 y0 (length_spriteRows_le m a n), ← rowsSet_spriteRows_iff]
  cases pixel fb x y <;> simp

/-- The drawing collides exactly when a set cell meets a set bit of the sprite (R203). -/
theorem collided_drawSprite_spriteRows (m : List Host.Cell) (a : Nat) (n : BitVec 4) (x0 y0 : Nat) (fb : Screen) :
    (drawSprite x0 y0 (spriteRows m a n.toNat) fb).2 = true ↔
      ∃ x y, pixel fb x y = true ∧ SpriteSets m a n.toNat x0 y0 x y := by
  simp only [drawSprite, collided_drawRows x0 y0 0 _ (length_spriteRows_le m a n), rowsSet_spriteRows_iff,
    Bool.false_eq_true, false_or]

/-- Settles O47: DRW draws the bytes it reads and then writes the collision to VF. -/
theorem drwFlipsSpriteCells : Obligations.DrwFlipsSpriteCells := by
  unfold Obligations.DrwFlipsSpriteCells
  intro x y n s h
  have hcollided := collided_drawSprite_spriteRows s.mem s.base n (s.reg x).toNat (s.reg y).toNat s.fb
  have hflag : ((s.drawAt x y (spriteRows s.mem s.base n.toNat)).advance).reg 15 =
      flagByte (drawSprite (s.reg x).toNat (s.reg y).toNat (spriteRows s.mem s.base n.toNat) s.fb).2 :=
    State.reg_setReg_same _ 15 _
  refine ⟨_, exec_drw_of_fits h, pixel_drawSprite_spriteRows s.mem s.base n _ _ s.fb, fun hmet => ?collision,
    fun hmet => ?noCollision, rfl, rfl, s.drawAt_advance_onlyRegsAndPc x y _⟩
  case collision => exact hflag.trans (congrArg flagByte (hcollided.2 hmet))
  case noCollision => exact hflag.trans (congrArg flagByte (Bool.eq_false_iff.2 (mt hcollided.1 hmet)))

end Sys2Proof.Machine
end

section
/-! PROOF. Register instructions (41_alu.md R153 to R163), the address register (42_index_and_memory.md R180 to R182), the
keypad (44_keypad_and_timers.md R220 to R223), and words of the spec's encodings (30_encoding.md R95). -/

namespace Sys2Proof.Machine

/-! ### Copy, logic and RND -/

/-- Settles O27: each is one register write, of the copy or of the bitwise result. -/
theorem copyAndLogic : Obligations.CopyAndLogic := by
  unfold Obligations.CopyAndLogic
  refine fun x y s => ⟨⟨_, rfl, s.reg_setReg_same x _, rfl, rfl, ?_⟩, ⟨_, rfl, fun k => ?or, rfl, rfl, ?_⟩,
    ⟨_, rfl, fun k => ?and, rfl, rfl, ?_⟩, ⟨_, rfl, fun k => ?xor, rfl, rfl, ?_⟩⟩
  case or => rw [State.reg_advance, State.reg_setReg_same, BitVec.getLsbD_or]
  case and => rw [State.reg_advance, State.reg_setReg_same, BitVec.getLsbD_and]
  case xor => rw [State.reg_advance, State.reg_setReg_same, BitVec.getLsbD_xor]
  all_goals exact s.advance_setReg_onlyRegsAndPc x _

/-- Settles O31: RND is the write of the masked sample, and the count of samples is one higher. -/
theorem rndMasksSample : Obligations.RndMasksSample := by
  unfold Obligations.RndMasksSample
  refine fun x kk s => ⟨_, rfl, fun k => ?masked, rfl, rfl, s.advance_setReg_onlyRegsAndPc x (s.rndByte &&& kk)⟩
  case masked =>
    rw [State.reg_sampled, State.randomInto, State.reg_advance, State.reg_setReg_same, BitVec.getLsbD_and, State.rndByte]

/-! ### SUB, SUBN, SHR, SHL -/

/-- A difference of bytes is the difference modulo 256 (R151). -/
theorem toNat_sub_byte (a b : Byte) : ((a - b).toNat : Int) = (a.toNat - b.toNat : Int) % 256 := by
  rw [BitVec.toNat_sub]
  omega

/-- The not-borrow as a number (R159, R160). -/
theorem notBorrowFlag_toNat (a b : Byte) : (notBorrowFlag a b).toNat = if a.toNat ≥ b.toNat then 1 else 0 := by
  simp only [notBorrowFlag, flagByte_toNat, decide_eq_true_eq]

/-- Settles O29: the result's register reads the difference, and VF, where it is another register, the not-borrow. -/
theorem subReportsNotBorrow : Obligations.SubReportsNotBorrow := by
  unfold Obligations.SubReportsNotBorrow
  refine fun x y s => ⟨⟨_, rfl, ?_, fun hx => ?_, rfl, rfl, s.writeFlagged_onlyRegsAndPc x _ _⟩,
    ⟨_, rfl, ?_, fun hx => ?_, rfl, rfl, s.writeFlagged_onlyRegsAndPc x _ _⟩⟩
  · rw [State.reg_writeFlagged_result, toNat_sub_byte]
  · rw [State.reg_writeFlagged_flag s _ _ hx, notBorrowFlag_toNat]
  · rw [State.reg_writeFlagged_result, toNat_sub_byte]
  · rw [State.reg_writeFlagged_flag s _ _ hx, notBorrowFlag_toNat]

/-- A bit of a byte as a number. -/
theorem flagByte_getLsbD_toNat (a : Byte) (k : Nat) : (flagByte (a.getLsbD k)).toNat = a.toNat / 2 ^ k % 2 := by
  rw [flagByte_toNat, BitVec.getLsbD, Nat.testBit_eq_decide_div_mod_eq]
  simp only [decide_eq_true_eq]
  split <;> omega

/-- Settles O30: half and double of the byte, and the bit that falls out at the other end. -/
theorem shiftsReportBitShiftedOut : Obligations.ShiftsReportBitShiftedOut := by
  unfold Obligations.ShiftsReportBitShiftedOut
  refine fun x s => ⟨⟨_, rfl, ?half, fun hx => ?low, rfl, rfl, s.writeFlagged_onlyRegsAndPc x _ _⟩,
    ⟨_, rfl, ?double, fun hx => ?high, rfl, rfl, s.writeFlagged_onlyRegsAndPc x _ _⟩⟩
  case half => rw [State.reg_writeFlagged_result, BitVec.toNat_ushiftRight, Nat.shiftRight_one]
  case low =>
    rw [State.reg_writeFlagged_flag s _ _ hx, shiftedOutLow, flagByte_getLsbD_toNat]
    omega
  case double =>
    rw [State.reg_writeFlagged_result, BitVec.toNat_shiftLeft, Nat.shiftLeft_eq]
    omega
  case high =>
    rw [State.reg_writeFlagged_flag s _ _ hx, shiftedOutHigh, flagByte_getLsbD_toNat]
    omega

/-! ### The address register -/

/-- An instruction that ends in a new I changes that and PC alone. -/
theorem State.advance_withIndex_onlyRegsAndPc (s : State) (a : Addr) :
    OnlyRegsAndPc [] s { { s.advance with i := a } with i := s.i } :=
  s.advance_onlyRegsAndPc

/-- Settles O38: the immediate, and a 12-bit sum, which wraps at 4096. -/
theorem ldiAddiSetIndex : Obligations.LdiAddiSetIndex := by
  unfold Obligations.LdiAddiSetIndex
  refine fun nnn x s => ⟨⟨_, rfl, rfl, rfl, rfl, s.advance_withIndex_onlyRegsAndPc nnn⟩,
    ⟨_, rfl, ?sum, rfl, rfl, s.advance_withIndex_onlyRegsAndPc _⟩⟩
  case sum =>
    show (s.i + (s.reg x).setWidth 12).toNat = _
    rw [BitVec.toNat_add, BitVec.toNat_setWidth_of_le (by decide)]

/-- The low nibble as a number. -/
theorem toNat_low_nibble (a : Byte) : (a &&& 0x0F).toNat = a.toNat % 16 := by
  rw [BitVec.toNat_and]
  exact Nat.and_two_pow_sub_one_eq_mod a.toNat 4

/-- The glyph address as a number: 12 bits hold it for every FONT_BASE (00_scope.md R5, R182). -/
theorem glyphAddr_toNat (a : Byte) : (glyphAddr a).toNat = Config.fontBase.val + 5 * (a.toNat % 16) := by
  have hfont := Config.fontBase.isLt
  rw [glyphAddr, toNat_low_nibble, fontStride, BitVec.toNat_ofNat]
  exact Nat.mod_eq_of_lt (by omega)

/-- Settles O39: the glyph address, which with its five bytes stays below 0x200 as FONT_BASE is at most 0x1B0. -/
theorem ldsPointsAtGlyph : Obligations.LdsPointsAtGlyph := by
  unfold Obligations.LdsPointsAtGlyph
  refine fun x s => ⟨_, rfl, glyphAddr_toNat (s.reg x), ?below, rfl, rfl, s.advance_withIndex_onlyRegsAndPc _⟩
  case below =>
    have hglyph := glyphAddr_toNat (s.reg x)
    have hfont := Config.fontBase.isLt
    show (glyphAddr (s.reg x)).toNat + 4 ≤ 0x1FF
    omega

/-! ### The keypad -/

/-- A key is pressed when its code is a keypad code and its bit of the sample is set (R220; D10, log 12). -/
theorem keyPressed_iff (keys : BitVec 16) (k : Byte) :
    keyPressed keys k = true ↔ k.toNat ≤ 15 ∧ keys.getLsbD k.toNat = true := by
  simp only [keyPressed, Bool.and_eq_true, decide_eq_true_eq, Nat.lt_succ_iff]

/-- Settles O50: both are skips on the key of the sample, and the count of samples is one higher. -/
theorem keySkips : Obligations.KeySkips := by
  unfold Obligations.KeySkips
  refine fun x s => ⟨⟨_, rfl, ?pressed, rfl, s.skipIf_onlyRegsAndPc (keyPressed s.keyDown (s.reg x))⟩,
    ⟨_, rfl, ?released, rfl, s.skipIf_onlyRegsAndPc (!keyPressed s.keyDown (s.reg x))⟩⟩
  case pressed =>
    rw [State.sampled_pc, State.skipIfKey, State.skipIf_pc, State.keyDown]
    simp only [keyPressed_iff]
  case released =>
    rw [State.sampled_pc, State.skipIfNoKey, State.skipIf_pc, State.keyDown]
    simp only [Bool.not_eq_true', ← Bool.not_eq_true, keyPressed_iff, ite_not]

/-- Settles O51: LDKP changes the run state alone. -/
theorem ldkpWaits : Obligations.LdkpWaits := by
  unfold Obligations.LdkpWaits
  exact fun x s => ⟨_, rfl, rfl, rfl, rfl, s.onlyRegsAndPc_self⟩

/-! ### Words of the spec -/

/-- Settles O1: the recognised words are the encodings of their instructions; the others select nothing. -/
theorem knownWordsDecode : Obligations.KnownWordsDecode := by
  unfold Obligations.KnownWordsDecode
  exact ⟨decode_encode (.ld 0 0x05), decode_encode (.add 0 0x03), rfl, rfl, decode_encode .ret,
    decode_encode (.call 0x345), decode_encode (.sner 1 2), rfl, decode_encode (.addr 1 2), decode_encode (.addi 2),
    decode_encode (.drw 0 1 3), decode_encode (.sknp 4), decode_encode (.ldkp 1), rfl, rfl, rfl, rfl⟩

end Sys2Proof.Machine
end
